-- ==== Sys2Proof/Word.lean ====
section
/-! DEFINITION. The word types of the ZXDisplay compositor (spec/00_scope.md rule R12): a byte, a colour index
and a command-stream position. -/

namespace Sys2Proof

/-- A byte is 8 bits (R12). -/
abbrev Byte := BitVec 8

/-- A colour index 0..15; bit 3 is "bright" and bits 2..0 are the base colour (spec/00_scope.md, glossary). -/
abbrev Colour := BitVec 4

/-- A byte offset in the command stream, modulo 2^32 (R18). -/
abbrev StreamPos := BitVec 32

end Sys2Proof
end

