-- ==== Sys2Proof/Config.lean ====
section
/-! DEFINITION. The fixed display constants, the implementation parameters with their well-formedness (a configuration
that fails it is refused by name), and the values that the spec leaves open as uninterpreted constants. -/

namespace Sys2Proof

/-! ## Fixed constants (R5, R6) -/

/-- Columns of the cell grid (R5). -/
@[simp] abbrev columns : Nat := 32
/-- Rows of the cell grid (R5). -/
@[simp] abbrev rows : Nat := 24
/-- Width of a cell in logical pixels (R5). -/
@[simp] abbrev cellW : Nat := 8
/-- Height of a cell in logical pixels (R5). -/
@[simp] abbrev cellH : Nat := 8
/-- Width of the display in logical pixels (R5). -/
@[simp] abbrev pixelWidth : Nat := 256
/-- Height of the display in logical pixels (R5). -/
@[simp] abbrev pixelHeight : Nat := 192
/-- Size of the pixel plane in bytes (R6). -/
@[simp] abbrev pixSize : Nat := 6144
/-- Size of the attribute plane in bytes (R6). -/
@[simp] abbrev attrSize : Nat := 768
/-- Number of glyphs in the ROM (R6). -/
@[simp] abbrev glyphCount : Nat := 96
/-- Size of the glyph ROM in bytes (R6). -/
@[simp] abbrev glyphSize : Nat := 768
/-- Number of entries of the colour table (R6). -/
@[simp] abbrev colourCount : Nat := 16

/-- One RGBA quadruple of four 8-bit values (R8). -/
structure Rgba where
  r : Byte
  g : Byte
  b : Byte
  a : Byte
  deriving DecidableEq, Repr, Inhabited

/-- The two writable byte-addressed spaces of R28. -/
inductive Space where
  | pix
  | attr
  deriving DecidableEq, Repr

/-! ## Parameters (R7 to R11) -/

/-- The named parameters, as given, before any check. -/
structure Params where
  /-- `SCALE`, the upscale factor (R7). -/
  scale : Nat
  /-- `COLOUR_TABLE`, 16 RGBA entries (R8). -/
  colourTable : Vector Rgba 16
  /-- `GLYPH_ROM`, 768 bytes: byte `8k+i` is row `i` of the glyph of code `0x20+k` (R9). -/
  glyphRom : Vector Byte 768
  /-- `CLEAR_PHASE`, 0 or 1 (R10). -/
  clearPhase : Nat
  /-- `CHARSET_ROW`, the row where DRAWCHARSET starts (R11). -/
  charsetRow : Nat
  /-- `CHARSET_COL`, the column where DRAWCHARSET starts (R11). -/
  charsetCol : Nat
  deriving DecidableEq, Repr

/-- Why a configuration is ill-formed: one name for each check of R7, R8, R10 and R11. -/
inductive ConfigError where
  /-- `SCALE < 1` or `SCALE > 65535` (R7). -/
  | scaleOutOfRange
  /-- `COLOUR_TABLE[8]` differs from `COLOUR_TABLE[0]` (R8). -/
  | brightBlackDiffers
  /-- `CLEAR_PHASE` is neither 0 nor 1 (R10). -/
  | clearPhaseOutOfRange
  /-- `CHARSET_ROW > 23` or `CHARSET_COL > 31` (R11). -/
  | charsetCellOutOfGrid
  deriving DecidableEq, Repr

/-- The first rule that the parameters break, if any. -/
def Params.check (p : Params) : Option ConfigError :=
  if p.scale < 1 ∨ 65535 < p.scale then some .scaleOutOfRange
  else if p.colourTable[8] ≠ p.colourTable[0] then some .brightBlackDiffers
  else if 1 < p.clearPhase then some .clearPhaseOutOfRange
  else if 23 < p.charsetRow ∨ 31 < p.charsetCol then some .charsetCellOutOfGrid
  else none

/-- A well-formed configuration: the parameters with the proof that no check refuses them, so that a machine with an
ill-formed configuration cannot be built (DESIGN CHOICE, log entry 5). -/
structure Config extends Params where
  wf : toParams.check = none
  deriving DecidableEq, Repr

/-- The one way from raw parameters to a configuration: an ill-formed one is refused by name (R7, R8). -/
def Config.ofParams (p : Params) : Except ConfigError Config :=
  match h : p.check with
  | none => .ok (Config.mk p h)
  | some e => .error e

/-! ## The build's own parameters: open values, uninterpreted (D15, D18, D20, D21, D22; DESIGN CHOICE, log entry 5) -/

/-- `SCALE - 1` of the machine that State.reset powers up. -/
opaque Config.buildScalePred : Fin 65535
/-- The colour table of that machine, before entry 8 is made equal to entry 0. -/
opaque Config.buildColours : Vector Rgba 16
/-- The glyph ROM of that machine. -/
opaque Config.buildGlyphs : Vector Byte 768
/-- `CLEAR_PHASE` of that machine. -/
opaque Config.buildClearPhase : Fin 2
/-- `CHARSET_ROW` of that machine. -/
opaque Config.buildCharsetRow : Fin 24
/-- `CHARSET_COL` of that machine. -/
opaque Config.buildCharsetCol : Fin 32

/-- The open parameters put together. -/
def Config.buildParams : Params where
  scale := Config.buildScalePred.val + 1
  colourTable := Config.buildColours.set 8 Config.buildColours[0]
  glyphRom := Config.buildGlyphs
  clearPhase := Config.buildClearPhase.val
  charsetRow := Config.buildCharsetRow.val
  charsetCol := Config.buildCharsetCol.val

theorem Config.buildParams_check : Config.buildParams.check = none := by
  have h1 := Config.buildScalePred.isLt
  have h2 := Config.buildClearPhase.isLt
  have h3 := Config.buildCharsetRow.isLt
  have h4 := Config.buildCharsetCol.isLt
  have h5 : Config.buildParams.colourTable[8] = Config.buildParams.colourTable[0] := by
    simp [Config.buildParams]
  have h6 : Config.buildParams.scale = Config.buildScalePred.val + 1 := rfl
  have h7 : Config.buildParams.clearPhase = Config.buildClearPhase.val := rfl
  have h8 : Config.buildParams.charsetRow = Config.buildCharsetRow.val := rfl
  have h9 : Config.buildParams.charsetCol = Config.buildCharsetCol.val := rfl
  unfold Params.check
  rw [if_neg (by omega), if_neg (by simpa using h5), if_neg (by omega), if_neg (by omega)]

/-- The configuration of the machine that State.reset powers up: every well-formed one is possible. -/
def Config.machine : Config := Config.mk Config.buildParams Config.buildParams_check

/-! ## Free values (R27, R60): nothing constrains them (DESIGN CHOICE of their form, log entries 1, 2 and 4) -/

/-- INK right after the `n`-th reset (R27: any of 0..15). -/
opaque Config.resetInk : Nat → Colour
/-- PAPER right after the `n`-th reset (R27: any of 0..15). -/
opaque Config.resetPaper : Nat → Colour
/-- What a byte of a plane that nothing has written since the `n`-th reset holds: `unwritten sp n a` (R27: any byte
each, independently, stable until written). -/
opaque Config.unwritten : Space → Nat → Nat → Byte
/-- The answer of the entropy source to the `k`-th draw, where State holds no answer for it (R60: any value 0..255). -/
opaque Config.entropy : Nat → Byte

end Sys2Proof
end

