-- ==== Sys2Proof/Machine/State.lean ====
section
/-! DEFINITION. The state of the block as plain data: the architectural state of R15, the ordered output log of R84,
the bytes that the host and the entropy source have supplied and the block has not used yet, and the configuration;
and the state after reset (R27, R91). -/

namespace Sys2Proof.Machine

/-- One event of the output log (R84). -/
inductive Event where
  /-- `Response(b)`: one byte to the host. -/
  | response (b : Byte)
  /-- `Present(ox, oy, W, H, buf)`: one image with its origin to the presentation surface (R69). -/
  | present (ox oy w h : Nat) (buf : List Byte)
  deriving DecidableEq, Repr

/-- The written bytes of one plane: (address, byte) pairs, addresses strictly rising (Memory.wf of Machine/Ops.lean).
An unlisted address is one that nothing has written since reset; it holds no byte here, so no entry can equal it, and
what it reads as is `unlisted` of Machine/Ops.lean (DESIGN CHOICE, log entries 2 and 3). -/
abbrev Memory := List Host.Cell

/-- The state of the block. -/
structure State where
  /-- The configuration, fixed for the machine: no command and no reset changes it (R15, R25). -/
  cfg : Config
  /-- `INK`, 4 bits (R16). -/
  ink : Colour
  /-- `PAPER`, 4 bits (R16). -/
  paper : Colour
  /-- `CMDPOS`, 32 bits (R18). -/
  cmdpos : StreamPos
  /-- `STATUS`, 8 bits (R19). -/
  status : Byte
  /-- `FAULT_INFO`, 8 bits (R20). -/
  faultInfo : Byte
  /-- `FAULT_POS`, 32 bits (R21). -/
  faultPos : StreamPos
  /-- `PIX`, the pixel plane (R23). -/
  pix : Memory
  /-- `ATTR`, the attribute plane (R24). -/
  attr : Memory
  /-- `PENDING`: the bytes of a command not yet complete (R26). -/
  pending : List Byte
  /-- The command stream's bytes that the host has sent and the processor has not taken yet, oldest first (R28, R85; DEDUCED,
  log entry 7). -/
  input : List Byte
  /-- The output log of Responses and Presents, oldest first (R84; DESIGN CHOICE, log entry 11). -/
  output : List Event
  /-- The answers that the entropy source holds ready, next first (R2, R85); when there is none the answer is the free
  value `Config.entropy draws`. The model's own field (DESIGN CHOICE, log entry 4). -/
  answers : List Byte
  /-- How many bytes the entropy source has been asked for. The model's own counter of free values (DESIGN CHOICE, log
  entries 4 and 13). -/
  draws : Nat
  /-- Which reset the unspecified values belong to. The model's own counter of free values (DESIGN CHOICE, log entries 1,
  2 and 13). -/
  resets : Nat
  deriving DecidableEq, Repr

/-- Why the machine has no step. Neither constructor is an exception of R77: those are taken as next states
(DESIGN CHOICE, log entry 6). -/
inductive Fault where
  /-- Raised by `step` only, in HALTED (R78): the processor executes no command and takes no byte until reset. A stuck
  state, safe: the spec gives a halted block no step. -/
  | halted
  /-- Raised by `step` only, in WAITING with every byte the host sent already in PENDING (R86): there is no step until
  the host sends more. A stuck state and no error of the program, safe: the spec gives a waiting block no step. -/
  | waiting
  deriving DecidableEq, Repr

/-- Why an instruction has no meaning. -/
inductive Refusal where
  /-- Raised by an arm of `exec` for a row of the opcode table without a meaning; no arm does. Safe. -/
  | notModelled (mnemonic : String)
  deriving DecidableEq, Repr

/-- The state right after the `n`-th reset of a machine (R27, R91), beside what reset leaves alone: the configuration,
the output log and the entropy source. INK, PAPER and both planes are unspecified, so they are free values (DESIGN CHOICE, log entries 1, 2
and 13). -/
def State.afterReset (cfg : Config) (n : Nat) (output : List Event) (answers : List Byte) (draws : Nat) : State where
  cfg := cfg
  ink := Config.resetInk n
  paper := Config.resetPaper n
  cmdpos := 0
  status := 0
  faultInfo := 0
  faultPos := 0
  pix := []
  attr := []
  pending := []
  input := []
  output := output
  answers := answers
  draws := draws
  resets := n

/-- The machine right after its first reset, at power-up (R27, R91): an empty output log and nothing sent yet. -/
def State.reset : State := State.afterReset Config.machine 0 [] [] 0

end Sys2Proof.Machine
end

