-- ==== Sys2Proof/Machine/Flags.lean ====
section
/-! DEFINITION. The status register's fields and the causes that a fault writes into it (R17, R19, R77). The block has
no condition codes: no command computes a flag, and only a fault writes STATUS. -/

namespace Sys2Proof.Machine

/-- The two causes of R77. -/
inductive Cause where
  | illegalOpcode
  | reservedRegister
  deriving DecidableEq, Repr

/-- The number of a cause (R19, R77). -/
def causeNumber : Cause → Nat
  | .illegalOpcode => 1
  | .reservedRegister => 2

/-- `STATUS.FAULT`, bit 0 (R19). -/
def statusFault (status : Byte) : Bool := status.getLsbD 0

/-- `STATUS.CAUSE`, bits 7..4 (R19). -/
def statusCause (status : Byte) : Nat := (status.extractLsb' 4 4).toNat

/-- What a fault writes to STATUS: `(cause << 4) | 1` (R78). -/
def faultStatus (cause : Cause) : Byte := (BitVec.ofNat 8 (causeNumber cause) <<< 4) ||| 1#8

/-- The processor is in HALTED: a fault is recorded (R19, R78). -/
def halted (s : State) : Bool := statusFault s.status

end Sys2Proof.Machine
end

