-- ==== Sys2Proof/Syntax.lean ====
section
/-! DEFINITION. The commands of the block, one constructor per row of spec/opcode_table.json, with their operands as
the values that R43 assembles (s8 an integer, u8 a byte, u16 a natural number), and the assembler's pseudo-instructions. -/

namespace Sys2Proof

/-- One command (R45). -/
inductive Instr where
  /-- `NOP` (R73). -/
  | nop
  /-- `PACK a, b`, both s8 (R54). -/
  | pack (a b : Int)
  /-- `UNPACK x`, u8 (R55). -/
  | unpack (x : Byte)
  /-- `CLEAR` (R58). -/
  | clear
  /-- `SETGLYPH row, col, off`: s8, s8, u16 (R59). -/
  | setglyph (row col : Int) (off : Nat)
  /-- `RANDOMIZE row, col, height, width`, all s8 (R60). -/
  | randomize (row col height width : Int)
  /-- `DRAWCHAR row, col, code`: s8, s8, u8 (R63). -/
  | drawchar (row col : Int) (code : Byte)
  /-- `DRAWTEXT row, col, len, c_0 … c_(len−1)`: s8, s8, u16, then `len` u8; `len` is the list's length (R64). -/
  | drawtext (row col : Int) (codes : List Byte)
  /-- `DRAWCHARSET` (R65). -/
  | drawcharset
  /-- `RENDER row, col, height, width`, all s8 (R70). -/
  | render (row col height width : Int)
  /-- `UPDATE` (R71). -/
  | update
  /-- `SETINK v`, s8 (R74). -/
  | setink (v : Int)
  /-- `SETPAPER v`, s8 (R75). -/
  | setpaper (v : Int)
  /-- `READREG idx`, u8 (R76). -/
  | readreg (idx : Byte)
  /-- The row "(illegal)": an opcode byte 0x0E..0xFF (R47, R77). -/
  | illegal (opcode : Byte)
  deriving DecidableEq, Repr

/-- The assembler's pseudo-instructions (R50). -/
inductive Pseudo where
  /-- `CLS ink, paper`. -/
  | cls (ink paper : Int)
  /-- `COLOR ink, paper`. -/
  | color (ink paper : Int)
  /-- `REFRESH`. -/
  | refresh
  /-- `RENDERALL`. -/
  | renderall
  deriving DecidableEq, Repr

end Sys2Proof
end

