-- ==== Sys2Proof/WellFormed.lean ====
section
/-! DEFINITION. Which terms of Instr are commands of the machine: every operand fits its format (R43), and the row
"(illegal)" holds only the opcode bytes that R45 gives it. -/

namespace Sys2Proof

/-- `v` fits an s8 operand (R43). -/
def fitsS8 (v : Int) : Bool := decide (-128 ≤ v) && decide (v ≤ 127)

/-- `v` fits a u16 operand (R43). -/
def fitsU16 (v : Nat) : Bool := decide (v ≤ 65535)

/-- The operands of a command fit their formats (R43, R44); u8 operands fit by their type. -/
def Instr.wf : Instr → Bool
  | .nop => true
  | .pack a b => fitsS8 a && fitsS8 b
  | .unpack _ => true
  | .clear => true
  | .setglyph row col off => fitsS8 row && fitsS8 col && fitsU16 off
  | .randomize row col height width => fitsS8 row && fitsS8 col && fitsS8 height && fitsS8 width
  | .drawchar row col _ => fitsS8 row && fitsS8 col
  | .drawtext row col codes => fitsS8 row && fitsS8 col && fitsU16 codes.length
  | .drawcharset => true
  | .render row col height width => fitsS8 row && fitsS8 col && fitsS8 height && fitsS8 width
  | .update => true
  | .setink v => fitsS8 v
  | .setpaper v => fitsS8 v
  | .readreg _ => true
  | .illegal opcode => decide (0x0E ≤ opcode.toNat)

end Sys2Proof
end

