-- ==== Sys2Proof/Decode.lean ====
section
/-! DEFINITION. The decoder (R42 to R48): the length of a command from its first bytes, the command at the head of a
byte stream with the rest of the stream, and the encoder written from the same formats; and the reading of a word as
spec/opcode_table.json numbers its bits. -/

namespace Sys2Proof

/-! ## Operand assembly (R43) -/

/-- An s8 operand: one byte read as two's complement. -/
def sext8 (b : Byte) : Int := b.toInt

/-- A u8 operand: one byte read unsigned. -/
def zext8 (b : Byte) : Nat := b.toNat

/-- A u16 operand: two bytes, low byte first. -/
def u16 (lo hi : Byte) : Nat := zext8 lo + 256 * zext8 hi

/-- The byte of an s8 operand. -/
def s8Byte (v : Int) : Byte := BitVec.ofInt 8 v

/-- The low byte of a u16 operand. -/
def loByte (v : Nat) : Byte := BitVec.ofNat 8 v

/-- The high byte of a u16 operand. -/
def hiByte (v : Nat) : Byte := BitVec.ofNat 8 (v / 256)

/-! ## Lengths (R46) -/

/-- The length of the command that begins with these bytes; `none` while it is not known yet. -/
def cmdLength : List Byte → Option Nat
  | [] => none
  | op :: rest =>
    match op.toNat with
    | 0x00 | 0x03 | 0x08 | 0x0A => some 1
    | 0x02 | 0x0B | 0x0C | 0x0D => some 2
    | 0x01 => some 3
    | 0x06 => some 4
    | 0x04 | 0x05 | 0x09 => some 5
    | 0x07 =>
      match rest with
      | _ :: _ :: lo :: hi :: _ => some (5 + u16 lo hi)
      | _ => none
    | _ => some 1

/-! ## The decoder (R42 to R47) -/

/-- Why no command is read from a stream. -/
inductive DecodeError where
  /-- The stream ends before the command does: its bytes wait in PENDING, which is no fault (R46, R86). -/
  | incomplete
  deriving DecidableEq, Repr

/-- The command at the head of the stream and the rest of the stream. Total on any bytes; an opcode byte that names no
command is the row "(illegal)" under its own name (R47), and an unfinished command is rejected as `incomplete`. -/
def decode : List Byte → Except DecodeError (Instr × List Byte)
  | [] => .error .incomplete
  | op :: s =>
    match op.toNat with
    | 0x00 => .ok (.nop, s)
    | 0x01 => match s with
      | a :: b :: t => .ok (.pack (sext8 a) (sext8 b), t)
      | _ => .error .incomplete
    | 0x02 => match s with
      | x :: t => .ok (.unpack x, t)
      | _ => .error .incomplete
    | 0x03 => .ok (.clear, s)
    | 0x04 => match s with
      | r :: c :: lo :: hi :: t => .ok (.setglyph (sext8 r) (sext8 c) (u16 lo hi), t)
      | _ => .error .incomplete
    | 0x05 => match s with
      | r :: c :: h :: w :: t => .ok (.randomize (sext8 r) (sext8 c) (sext8 h) (sext8 w), t)
      | _ => .error .incomplete
    | 0x06 => match s with
      | r :: c :: k :: t => .ok (.drawchar (sext8 r) (sext8 c) k, t)
      | _ => .error .incomplete
    | 0x07 => match s with
      | r :: c :: lo :: hi :: t =>
        if u16 lo hi ≤ t.length then
          .ok (.drawtext (sext8 r) (sext8 c) (t.take (u16 lo hi)), t.drop (u16 lo hi))
        else .error .incomplete
      | _ => .error .incomplete
    | 0x08 => .ok (.drawcharset, s)
    | 0x09 => match s with
      | r :: c :: h :: w :: t => .ok (.render (sext8 r) (sext8 c) (sext8 h) (sext8 w), t)
      | _ => .error .incomplete
    | 0x0A => .ok (.update, s)
    | 0x0B => match s with
      | v :: t => .ok (.setink (sext8 v), t)
      | _ => .error .incomplete
    | 0x0C => match s with
      | v :: t => .ok (.setpaper (sext8 v), t)
      | _ => .error .incomplete
    | 0x0D => match s with
      | x :: t => .ok (.readreg x, t)
      | _ => .error .incomplete
    | _ => .ok (.illegal op, s)

/-! ## The encoder (R44, R45) -/

/-- The bytes of a command, in stream order. -/
def encode : Instr → List Byte
  | .nop => [0x00]
  | .pack a b => [0x01, s8Byte a, s8Byte b]
  | .unpack x => [0x02, x]
  | .clear => [0x03]
  | .setglyph row col off => [0x04, s8Byte row, s8Byte col, loByte off, hiByte off]
  | .randomize row col height width => [0x05, s8Byte row, s8Byte col, s8Byte height, s8Byte width]
  | .drawchar row col code => [0x06, s8Byte row, s8Byte col, code]
  | .drawtext row col codes =>
    0x07 :: s8Byte row :: s8Byte col :: loByte codes.length :: hiByte codes.length :: codes
  | .drawcharset => [0x08]
  | .render row col height width => [0x09, s8Byte row, s8Byte col, s8Byte height, s8Byte width]
  | .update => [0x0A]
  | .setink v => [0x0B, s8Byte v]
  | .setpaper v => [0x0C, s8Byte v]
  | .readreg idx => [0x0D, idx]
  | .illegal opcode => [opcode]

/-- The length of a command in bytes: what CMDPOS advances by when it completes (R18, R46). -/
def instrLength : Instr → Nat
  | .nop => 1
  | .pack _ _ => 3
  | .unpack _ => 2
  | .clear => 1
  | .setglyph _ _ _ => 5
  | .randomize _ _ _ _ => 5
  | .drawchar _ _ _ => 4
  | .drawtext _ _ codes => 5 + codes.length
  | .drawcharset => 1
  | .render _ _ _ _ => 5
  | .update => 1
  | .setink _ => 2
  | .setpaper _ => 2
  | .readreg _ => 2
  | .illegal _ => 1

/-! ## Words as spec/opcode_table.json numbers them -/

/-- The bytes of the command whose bits are `w`: byte `k` of the stream is bits `8k+7..8k`, every bit from `nbits` up
is 0, and there are as many bytes as R46 says (DEDUCED, log entry 8). -/
def tableBytes (nbits w : Nat) : List Byte :=
  let byteAt (k : Nat) : Byte := BitVec.ofNat 8 (w % 2 ^ nbits / 256 ^ k)
  let n := (cmdLength ((List.range 5).map byteAt)).getD 1
  (List.range n).map byteAt

/-- The command the decoder reads from a word of the opcode table. -/
def decodeTableWord (nbits w : Nat) : Option Instr :=
  match decode (tableBytes nbits w) with
  | .ok (i, _) => some i
  | .error .incomplete => none

end Sys2Proof
end

