-- ==== Sys2Proof/Machine/Operands.lean ====
section
/-! DEFINITION. What the operands stand for: colours and attribute bytes (R51 to R53), cells and plane addresses (R29 to
R32), clipped regions (R34). Coordinates are integers, so no sum of operands wraps (R12). -/

namespace Sys2Proof.Machine

/-! ## Colours and attribute bytes -/

/-- `clamp16(v)`: any integer to a colour index (R51). -/
def clamp16 (v : Int) : Colour :=
  if v < 0 then 0#4 else if 15 < v then 15#4 else BitVec.ofInt 4 v

/-- `pack(ink, paper)` (R52). -/
def pack (ink paper : Int) : Byte :=
  let i := (clamp16 ink).toNat
  let p := (clamp16 paper).toNat
  let isBright : Nat := if 7 < i ∨ 7 < p then 1 else 0
  let ib := if 7 < i then i - 8 else i
  let pb := if 7 < p then p - 8 else p
  BitVec.ofNat 8 (isBright <<< 6 ||| pb <<< 3 ||| ib)

/-- `pack` of two colour registers. -/
def packColours (ink paper : Colour) : Byte := pack ink.toNat paper.toNat

/-- `unpack(x)`: (ink, paper); bit 7 takes no part (R53). -/
def unpack (x : Byte) : Colour × Colour :=
  let bright := if x.getLsbD 6 then 1 else 0
  (BitVec.ofNat 4 ((x.extractLsb' 0 3).toNat + 8 * bright), BitVec.ofNat 4 ((x.extractLsb' 3 3).toNat + 8 * bright))

/-! ## Cells and addresses -/

/-- The cell (row, col) is in the grid (R29). -/
def inGrid (row col : Int) : Bool :=
  decide (0 ≤ row) && decide (row < rows) && decide (0 ≤ col) && decide (col < columns)

/-- The pixel-plane address of subrow `s` of cell (row, col) (R30). -/
def pixAddr (row s col : Nat) : Nat := (row * 8 + s) * columns + col

/-- The attribute-plane address of cell (row, col) (R31). -/
def attrAddr (row col : Nat) : Nat := row * columns + col

/-- The glyph-ROM offset of a character code, for 0x20 ≤ code ≤ 0x7F (R32). -/
def glyphOff (code : Nat) : Nat := (code - 0x20) * 8

/-- The nine bytes of a cell, the attribute first and then the subrows in order (R57). -/
def cellBytes (row col : Nat) : List (Space × Nat) :=
  (.attr, attrAddr row col) :: (List.range 8).map fun i => (.pix, pixAddr row i col)

/-! ## Regions -/

/-- A non-empty clipped region: cells `r0 ≤ r < r1`, `c0 ≤ c < c1` (R34). -/
structure Region where
  r0 : Nat
  c0 : Nat
  r1 : Nat
  c1 : Nat
  deriving DecidableEq, Repr

/-- `clipRegion`: the intersection of a region with the grid; `none` is EMPTY (R34). -/
def clipRegion (row col height width : Int) : Option Region :=
  let r0 := max row 0
  let r1 := min (row + height) rows
  let c0 := max col 0
  let c1 := min (col + width) columns
  if r1 ≤ r0 ∨ c1 ≤ c0 then none
  else some { r0 := r0.toNat, c0 := c0.toNat, r1 := r1.toNat, c1 := c1.toNat }

/-- The numbers a, a+1, …, b−1 (R13). -/
def between (a b : Nat) : List Nat := (List.range (b - a)).map (a + ·)

/-- The cells of a region, row by row (R60). -/
def regionCells (g : Region) : List (Nat × Nat) :=
  (between g.r0 g.r1).flatMap fun r => (between g.c0 g.c1).map fun c => (r, c)

/-- The bytes of a region's cells, cell by cell. -/
def regionBytes (g : Region) : List (Space × Nat) :=
  (regionCells g).flatMap fun rc => cellBytes rc.1 rc.2

end Sys2Proof.Machine
end

