-- ==== Sys2Proof/Machine/Ops.lean ====
section
/-! DEFINITION. The named operations over State that the commands share: plane bytes, register writes, output events,
entropy draws, raising a fault and leaving HALTED by reset, taking bytes from the command stream, and the drawing
micro-operations setGlyph, drawChar and drawText. -/

namespace Sys2Proof.Machine

/-! ## A plane as data -/

/-- The written byte at an address, if any. -/
def Memory.lookup : Memory → Nat → Option Byte
  | [], _ => none
  | (k, v) :: m, a => if k = a then some v else Memory.lookup m a

/-- Write one byte, keeping the addresses strictly rising. -/
def Memory.write : Memory → Nat → Byte → Memory
  | [], a, v => [(a, v)]
  | (k, w) :: m, a, v =>
    if a < k then (a, v) :: (k, w) :: m
    else if a = k then (a, v) :: m
    else (k, w) :: Memory.write m a v

/-- A plane of `size` bytes with `f a` written at every address `a`. -/
def Memory.fill (size : Nat) (f : Nat → Byte) : Memory := (List.range size).map fun a => (a, f a)

/-- The canonical form: addresses strictly rising, each inside the plane. -/
abbrev Memory.wf (size : Nat) (m : Memory) : Prop :=
  m.Pairwise (fun x y => x.1 < y.1) ∧ ∀ x ∈ m, x.1 < size

/-! ## Plane access (R13, R28; no bound is checked, for no command leaves a plane: log entry 19) -/

/-- The number of bytes of a plane (R6, R28). -/
def spaceSize : Space → Nat
  | .pix => pixSize
  | .attr => attrSize

/-- The written bytes of a plane. -/
def plane (sp : Space) (s : State) : Memory :=
  match sp with
  | .pix => s.pix
  | .attr => s.attr

/-- Put a plane back. -/
def setPlane (sp : Space) (m : Memory) (s : State) : State :=
  match sp with
  | .pix => { s with pix := m }
  | .attr => { s with attr := m }

/-- What an address that nothing has written since reset reads as: a free byte, the same until it is written (R27;
DESIGN CHOICE, log entry 2). -/
def unlisted (sp : Space) (a : Nat) (s : State) : Byte := Config.unwritten sp s.resets a

/-- `MemRead(sp, a, 1)` (R13). -/
def memRead (sp : Space) (a : Nat) (s : State) : Byte := ((plane sp s).lookup a).getD (unlisted sp a s)

/-- `MemWrite(sp, a, 1, v)` (R13). -/
def memWrite (sp : Space) (a : Nat) (v : Byte) (s : State) : State := setPlane sp ((plane sp s).write a v) s

/-- Write a list of bytes, first to last. -/
def memWriteAll (ws : List ((Space × Nat) × Byte)) (s : State) : State :=
  ws.foldl (fun s w => memWrite w.1.1 w.1.2 w.2 s) s

/-! ## Tables (R25, R32, R33) -/

/-- `GLYPH_ROM[a]`; R57 asks only for `a ≤ 767` (elsewhere the ROM has no byte, and no command reads there;
DESIGN CHOICE, log entry 12). -/
def glyphByte (cfg : Config) (a : Nat) : Byte := if h : a < 768 then cfg.glyphRom[a] else 0

/-- Eight consecutive ROM bytes from an offset (R37). -/
def glyphRows (cfg : Config) (off : Nat) : List Byte := (List.range 8).map fun i => glyphByte cfg (off + i)

/-- `COLOUR_TABLE[i]`, a whole quadruple (R33). -/
def colourEntry (cfg : Config) (i : Colour) : Rgba := cfg.colourTable[i.toNat]'(i.isLt)

/-! ## Registers and events -/

/-- `INK <- v` (R16). -/
def setInk (v : Colour) (s : State) : State := { s with ink := v }

/-- `PAPER <- v` (R16). -/
def setPaper (v : Colour) (s : State) : State := { s with paper := v }

/-- The attribute byte of the current colours, `pack(INK, PAPER)` (R16). -/
def currentAttr (s : State) : Byte := packColours s.ink s.paper

/-- `CMDPOS <- (CMDPOS + n) mod 2^32` (R18). -/
def advance (n : Nat) (s : State) : State := { s with cmdpos := s.cmdpos + BitVec.ofNat 32 n }

/-- Append one event to the output log (R84). -/
def emit (e : Event) (s : State) : State := { s with output := s.output ++ [e] }

/-- The answer of the entropy source to the next draw (R13, R60). -/
def entropyAnswer (s : State) : Byte :=
  match s.answers with
  | b :: _ => b
  | [] => Config.entropy s.draws

/-- The answer is used up. -/
def takeAnswer (s : State) : State := { s with answers := s.answers.tail, draws := s.draws + 1 }

/-- `sp[a] <- draw Entropy()` (R60). -/
def drawInto (sp : Space) (a : Nat) (s : State) : State := memWrite sp a (entropyAnswer s) (takeAnswer s)

/-- Draw a byte for each address, in order. -/
def drawAll (ts : List (Space × Nat)) (s : State) : State := ts.foldl (fun s t => drawInto t.1 t.2 s) s

/-! ## Faults and reset -/

/-- `raise Fault(cause, info)` (R78): the record is written, CMDPOS stays at the faulting opcode, and the processor is
in HALTED because `STATUS.FAULT` is 1. -/
def raiseFault (cause : Cause) (info : Byte) (s : State) : State :=
  { s with status := faultStatus cause, faultInfo := info, faultPos := s.cmdpos }

/-- Reset asserted by the host (R91), the only way out of HALTED (R80). The output log, the configuration and the
entropy source stay; bytes sent before the reset are gone, for the first byte sent after it is the opcode at offset 0
(R27; DEDUCED, log entry 9). -/
def resetBlock (s : State) : State := State.afterReset s.cfg (s.resets + 1) s.output s.answers s.draws

/-! ## The command stream (R42, R46, R86) -/

/-- The bytes the processor can see: PENDING and what the host has sent since. -/
def stream (s : State) : List Byte := s.pending ++ s.input

/-- The state with a command's bytes taken off the stream, PENDING empty at the boundary (R26;
DESIGN CHOICE, log entry 10). -/
def withRest (rest : List Byte) (s : State) : State := { s with pending := [], input := rest }

/-- The bytes of an unfinished command wait in PENDING (R46; DEDUCED, log entry 7). -/
def takeIn (s : State) : State := { s with pending := stream s, input := [] }

/-! ## Drawing micro-operations -/

/-- `setGlyph(row, col, off)` (R57): nine bytes of one cell, or nothing. -/
def setGlyph (row col : Int) (off : Nat) (s : State) : State :=
  if inGrid row col = false then s
  else if 767 < off + 7 then s
  else memWriteAll ((cellBytes row.toNat col.toNat).zip (currentAttr s :: glyphRows s.cfg off)) s

/-- `drawChar(row, col, code)` (R61). -/
def drawChar (row col : Int) (code : Byte) (s : State) : State :=
  if zext8 code < 0x20 ∨ 0x7F < zext8 code then s
  else setGlyph row col (glyphOff (zext8 code)) s

/-- `drawText(row, col, codes)` (R62). -/
def drawText : Int → Int → List Byte → State → State
  | _, _, [], s => s
  | r, c, k :: ks, s =>
    if (rows : Int) ≤ r then s
    else if (columns : Int) ≤ c + 1 then drawText (r + 1) 0 ks (drawChar r c k s)
    else drawText r (c + 1) ks (drawChar r c k s)

end Sys2Proof.Machine
end

