-- ==== Sys2Proof/Machine/Codec.lean ====
section
/-! DEFINITION. The attribute codec's commands: PACK and UNPACK (spec/40_codec.md). -/

namespace Sys2Proof.Machine

/-- `PACK a, b` (R54). -/
def execPack (a b : Int) (s : State) : Host.Outcome State Fault Refusal :=
  .next (advance 3 (emit (.response (pack a b)) s))

/-- `UNPACK x`: the ink byte first (R55). -/
def execUnpack (x : Byte) (s : State) : Host.Outcome State Fault Refusal :=
  .next (advance 2 (emit (.response ((unpack x).2.setWidth 8)) (emit (.response ((unpack x).1.setWidth 8)) s)))

end Sys2Proof.Machine
end

