-- ==== Sys2Proof/Machine/Compositor.lean ====
section
/-! DEFINITION. The raster compositor: the colour of a logical pixel, the image of a region, RENDER and UPDATE
(spec/43_compositor.md). -/

namespace Sys2Proof.Machine

/-- `logicalColour(x, y)` for 0 ≤ x < 256 and 0 ≤ y < 192 (R66). -/
def logicalColour (x y : Nat) (s : State) : Rgba :=
  let byte := memRead .pix (pixAddr (y / 8) (y % 8) (x / 8)) s
  let colours := unpack (memRead .attr (attrAddr (y / 8) (x / 8)) s)
  if byte.getLsbD (7 - x % 8) then colourEntry s.cfg colours.1 else colourEntry s.cfg colours.2

/-- The four bytes of a physical pixel, in the order R, G, B, A (R35). -/
def rgbaBytes (q : Rgba) : List Byte := [q.r, q.g, q.b, q.a]

/-- The image width in physical pixels (R67). -/
def imageWidth (g : Region) (scale : Nat) : Nat := (g.c1 - g.c0) * 8 * scale

/-- The image height in physical pixels (R67). -/
def imageHeight (g : Region) (scale : Nat) : Nat := (g.r1 - g.r0) * 8 * scale

/-- `renderImage(r0, c0, r1, c1)`: row-major, top to bottom, no padding (R68). -/
def renderImage (g : Region) (s : State) : List Byte :=
  (List.range (imageHeight g s.cfg.scale)).flatMap fun py =>
    (List.range (imageWidth g s.cfg.scale)).flatMap fun px =>
      rgbaBytes (logicalColour (g.c0 * 8 + px / s.cfg.scale) (g.r0 * 8 + py / s.cfg.scale) s)

/-- The Present of a region (R67, R69). -/
def presentEvent (g : Region) (s : State) : Event :=
  .present (g.c0 * 8 * s.cfg.scale) (g.r0 * 8 * s.cfg.scale) (imageWidth g s.cfg.scale) (imageHeight g s.cfg.scale)
    (renderImage g s)

/-- At most one Present: none for an EMPTY region (R70). -/
def renderRegion (row col height width : Int) (s : State) : State :=
  match clipRegion row col height width with
  | none => s
  | some g => emit (presentEvent g s) s

/-- `RENDER row, col, height, width` (R70). -/
def execRender (row col height width : Int) (s : State) : Host.Outcome State Fault Refusal :=
  .next (advance 5 (renderRegion row col height width s))

/-- The whole grid. -/
def wholeScreen : Region := { r0 := 0, c0 := 0, r1 := rows, c1 := columns }

/-- `UPDATE`: exactly one Present, of the whole screen (R71). -/
def execUpdate (s : State) : Host.Outcome State Fault Refusal :=
  .next (advance 1 (emit (presentEvent wholeScreen s) s))

end Sys2Proof.Machine
end

