-- ==== Sys2Proof/Machine/Control.lean ====
section
/-! DEFINITION. The control commands NOP, SETINK, SETPAPER and READREG (spec/44_control.md), and the illegal opcodes
(spec/60_exceptions.md). -/

namespace Sys2Proof.Machine

/-- `NOP` (R73). -/
def execNop (s : State) : Host.Outcome State Fault Refusal :=
  .next (advance 1 s)

/-- `SETINK v` (R74). -/
def execSetink (v : Int) (s : State) : Host.Outcome State Fault Refusal :=
  .next (advance 2 (setInk (clamp16 v) s))

/-- `SETPAPER v` (R75). -/
def execSetpaper (v : Int) (s : State) : Host.Outcome State Fault Refusal :=
  .next (advance 2 (setPaper (clamp16 v) s))

/-- The read-only configuration registers 0 to 6, 16 bits each; `none` is a reserved index (R22). -/
def configReg (cfg : Config) (idx : Nat) : Option (BitVec 16) :=
  match idx with
  | 0 => some (BitVec.ofNat 16 columns)
  | 1 => some (BitVec.ofNat 16 rows)
  | 2 => some (BitVec.ofNat 16 pixelWidth)
  | 3 => some (BitVec.ofNat 16 pixelHeight)
  | 4 => some (BitVec.ofNat 16 cellW)
  | 5 => some (BitVec.ofNat 16 cellH)
  | 6 => some (BitVec.ofNat 16 cfg.scale)
  | _ => none

/-- `READREG idx`: the low byte first, or the fault of a reserved index, which leaves CMDPOS alone (R76). -/
def execReadreg (idx : Byte) (s : State) : Host.Outcome State Fault Refusal :=
  match configReg s.cfg (zext8 idx) with
  | none => .next (raiseFault .reservedRegister idx s)
  | some v =>
    .next (advance 2 (emit (.response (v.extractLsb' 8 8)) (emit (.response (v.extractLsb' 0 8)) s)))

/-- An opcode byte 0x0E..0xFF: the fault ILLEGAL_OPCODE with the byte recorded, and no other effect (R47, R77). -/
def execIllegal (opcode : Byte) (s : State) : Host.Outcome State Fault Refusal :=
  .next (raiseFault .illegalOpcode opcode s)

end Sys2Proof.Machine
end

