-- ==== Sys2Proof/Machine/DisplayMemory.lean ====
section
/-! DEFINITION. The virtual display memory's commands: CLEAR, SETGLYPH and RANDOMIZE (spec/41_display_memory.md). -/

namespace Sys2Proof.Machine

/-- `clearPattern(a)` (R56). -/
def clearPattern (cfg : Config) (a : Nat) : Byte :=
  if (a / 32 + cfg.clearPhase) % 2 = 0 then 0x55#8 else 0xAA#8

/-- Both planes overwritten, every byte (R58). -/
def clearPlanes (s : State) : State :=
  setPlane .pix (Memory.fill pixSize (clearPattern s.cfg))
    (setPlane .attr (Memory.fill attrSize fun _ => currentAttr s) s)

/-- `CLEAR` (R58). -/
def execClear (s : State) : Host.Outcome State Fault Refusal :=
  .next (advance 1 (clearPlanes s))

/-- `SETGLYPH row, col, off` (R59). -/
def execSetglyph (row col : Int) (off : Nat) (s : State) : Host.Outcome State Fault Refusal :=
  .next (advance 5 (setGlyph row col off s))

/-- The cells of the clipped region filled with entropy bytes (R60). -/
def randomizeRegion (row col height width : Int) (s : State) : State :=
  match clipRegion row col height width with
  | none => s
  | some g => drawAll (regionBytes g) s

/-- `RANDOMIZE row, col, height, width` (R60). -/
def execRandomize (row col height width : Int) (s : State) : Host.Outcome State Fault Refusal :=
  .next (advance 5 (randomizeRegion row col height width s))

end Sys2Proof.Machine
end

