-- ==== Sys2Proof/Machine/Drawing.lean ====
section
/-! DEFINITION. The drawing commands: DRAWCHAR, DRAWTEXT and DRAWCHARSET (spec/42_drawing.md). -/

namespace Sys2Proof.Machine

/-- `DRAWCHAR row, col, code` (R63). -/
def execDrawchar (row col : Int) (code : Byte) (s : State) : Host.Outcome State Fault Refusal :=
  .next (advance 4 (drawChar row col code s))

/-- `DRAWTEXT row, col, len, c_0 … c_(len−1)`: every code byte is consumed, also when drawing stops early (R64). -/
def execDrawtext (row col : Int) (codes : List Byte) (s : State) : Host.Outcome State Fault Refusal :=
  .next (advance (5 + codes.length) (drawText row col codes s))

/-- The 96 printable codes 0x20, 0x21, …, 0x7F (R65). -/
def charsetCodes : List Byte := (List.range glyphCount).map fun k => BitVec.ofNat 8 (0x20 + k)

/-- `DRAWCHARSET` (R65). -/
def execDrawcharset (s : State) : Host.Outcome State Fault Refusal :=
  .next (advance 1 (drawText s.cfg.charsetRow s.cfg.charsetCol charsetCodes s))

end Sys2Proof.Machine
end

