-- ==== Sys2Proof/Machine/Dispatch.lean ====
section
/-! DEFINITION. The dispatch: one arm per command. -/

namespace Sys2Proof.Machine

/-- What a command does, one arm per row of spec/opcode_table.json (in any state, DESIGN CHOICE, log entry 15). -/
def exec (i : Instr) (s : State) : Host.Outcome State Fault Refusal :=
  match i with
  | .nop => Sys2Proof.Machine.execNop s
  | .pack a b => Sys2Proof.Machine.execPack a b s
  | .unpack x => Sys2Proof.Machine.execUnpack x s
  | .clear => Sys2Proof.Machine.execClear s
  | .setglyph row col off => Sys2Proof.Machine.execSetglyph row col off s
  | .randomize row col height width => Sys2Proof.Machine.execRandomize row col height width s
  | .drawchar row col code => Sys2Proof.Machine.execDrawchar row col code s
  | .drawtext row col codes => Sys2Proof.Machine.execDrawtext row col codes s
  | .drawcharset => Sys2Proof.Machine.execDrawcharset s
  | .render row col height width => Sys2Proof.Machine.execRender row col height width s
  | .update => Sys2Proof.Machine.execUpdate s
  | .setink v => Sys2Proof.Machine.execSetink v s
  | .setpaper v => Sys2Proof.Machine.execSetpaper v s
  | .readreg idx => Sys2Proof.Machine.execReadreg idx s
  | .illegal opcode => Sys2Proof.Machine.execIllegal opcode s

end Sys2Proof.Machine
end

