-- ==== Sys2Proof/Machine/Step.lean ====
section
/-! DEFINITION. One step of the command processor (R86): in HALTED it has none; in RUNNING it executes the complete
command at the head of its stream; in WAITING it keeps an unfinished command's bytes in PENDING, and has no step once
they are there. -/

namespace Sys2Proof.Machine

/-- One step (R46, R78, R86; the two stuck outcomes are a DESIGN CHOICE, log entry 6). -/
def step (s : State) : Host.Outcome State Fault Refusal :=
  if halted s = true then .fault .halted
  else
    match decode (stream s) with
    | .ok (i, rest) => exec i (withRest rest s)
    | .error .incomplete => if s.input = [] then .fault .waiting else .next (takeIn s)

/-- `s` with one command of the opcode table at the head of its stream, and nothing after it: the host sends it
(DESIGN CHOICE, log entry 8). -/
def State.withFetchWord (s : State) (nbits w : Nat) : State := withRest (tableBytes nbits w) s

end Sys2Proof.Machine
end

