-- ==== Sys2Proof/Machine/Assembler.lean ====
section
/-! DEFINITION. The assembler of R49 and the pseudo-instructions of R50: from one line of source text to commands, and
from commands to the bytes of the stream. It is the host's tool and no part of the block
(what R49 leaves open is a DESIGN CHOICE, log entry 16). -/

namespace Sys2Proof.Machine

/-! ## Pseudo-instructions (R50) -/

/-- The commands that a pseudo-instruction stands for. -/
def expandPseudo : Pseudo → List Instr
  | .cls ink paper => [.setink ink, .setpaper paper, .clear]
  | .color ink paper => [.setink ink, .setpaper paper]
  | .refresh => [.update]
  | .renderall => [.render 0 0 24 32]

/-! ## Tokens of a line (R49) -/

/-- What a line is made of. -/
inductive Token where
  /-- A mnemonic or a number. -/
  | word (cs : List Char)
  /-- A character literal in single quotes. -/
  | chr (c : Char)
  /-- A string literal in double quotes. -/
  | str (cs : List Char)
  | comma
  deriving DecidableEq, Repr

/-- The word read so far, kept reversed, becomes a token. -/
def endWord (acc : List Char) (toks : List Token) : List Token :=
  if acc.isEmpty then toks else .word acc.reverse :: toks

/-- The tokens of a line, up to a comment; `inText` is set inside a string literal, which has no escapes. How
words are separated is the model's choice (DESIGN CHOICE, log entry 16). -/
def tokens : Bool → List Char → List Token → List Char → Option (List Token)
  | true, _, _, [] => none
  | true, acc, toks, c :: rest =>
    if c = '"' then tokens false [] (.str acc.reverse :: toks) rest else tokens true (c :: acc) toks rest
  | false, acc, toks, [] => some (endWord acc toks).reverse
  | false, acc, toks, '\'' :: c :: '\'' :: rest => tokens false [] (.chr c :: endWord acc toks) rest
  | false, acc, toks, c :: rest =>
    if c = ';' then some (endWord acc toks).reverse
    else if c = '\'' then none
    else if c = '"' then tokens true [] (endWord acc toks) rest
    else if c = ',' then tokens false [] (.comma :: endWord acc toks) rest
    else if c = ' ' ∨ c = '\t' then tokens false [] (endWord acc toks) rest
    else tokens false (c :: acc) toks rest

/-- The operands of a line, separated by commas. -/
def operandTokens : List Token → Option (List Token)
  | [] => some []
  | [t] => if t = .comma then none else some [t]
  | t :: u :: rest =>
    if t = .comma ∨ u ≠ .comma ∨ rest.isEmpty then none else (operandTokens rest).map (t :: ·)

/-! ## Numbers and operands (R49) -/

/-- The value of a digit, if it is one in this base. -/
def digitValue (base : Nat) (c : Char) : Option Nat :=
  let n := c.toNat
  let v := if 48 ≤ n ∧ n ≤ 57 then n - 48 else if 97 ≤ n ∧ n ≤ 102 then n - 87 else if 65 ≤ n ∧ n ≤ 70 then n - 55 else 99
  if v < base then some v else none

/-- A non-empty run of digits; leading zeros are accepted (DESIGN CHOICE, log entry 16). -/
def natOfDigits (base : Nat) : List Char → Option Nat
  | [] => none
  | cs => cs.foldl (fun acc c => acc.bind fun a => (digitValue base c).map fun d => a * base + d) (some 0)

/-- A number: decimal, signed, or hexadecimal `0x..`. R49 says only "signed where the operand is s8". The model's choice
(DESIGN CHOICE, log entry 16): the one sign is a minus before decimal digits, so `+5` and `-0x5` are refused; and an
operand's range, not its sign, decides, so `-0` is the 0 of an unsigned operand. -/
def intOfWord : List Char → Option Int
  | '-' :: ds => (natOfDigits 10 ds).map fun n => -(n : Int)
  | '0' :: 'x' :: ds => (natOfDigits 16 ds).map fun n => (n : Int)
  | ds => (natOfDigits 10 ds).map fun n => (n : Int)

/-- An s8 operand. -/
def asmS8 : Token → Option Int
  | .word cs => (intOfWord cs).bind fun v => if fitsS8 v then some v else none
  | _ => none

/-- A u16 operand. -/
def asmU16 : Token → Option Nat
  | .word cs => (intOfWord cs).bind fun v => if 0 ≤ v ∧ v ≤ 65535 then some v.toNat else none
  | _ => none

/-- A u8 operand, which may be written as a character literal. R49 says so of a u8 character code only and is silent on
the other u8 operands (UNPACK's byte, READREG's index): taking one there too is the model's choice (DESIGN CHOICE, log
entry 16). -/
def asmU8 : Token → Option Byte
  | .word cs => (intOfWord cs).bind fun v => if 0 ≤ v ∧ v ≤ 255 then some (BitVec.ofInt 8 v) else none
  | .chr c => if c.toNat ≤ 255 then some (BitVec.ofNat 8 c.toNat) else none
  | _ => none

/-- The codes of a string literal, each 0x00..0xFF, at most 65535 of them. -/
def asmText : Token → Option (List Byte)
  | .str cs =>
    if cs.all (fun c => decide (c.toNat ≤ 255)) && decide (cs.length ≤ 65535) then
      some (cs.map fun c => BitVec.ofNat 8 c.toNat)
    else none
  | _ => none

/-! ## Lines and programs (R49, R50) -/

/-- The commands of a mnemonic with its operands. -/
def asmCommand (mnemonic : String) (ops : List Token) : Option (List Instr) :=
  match mnemonic, ops with
  | "NOP", [] => some [.nop]
  | "PACK", [a, b] => do return [.pack (← asmS8 a) (← asmS8 b)]
  | "UNPACK", [x] => do return [.unpack (← asmU8 x)]
  | "CLEAR", [] => some [.clear]
  | "SETGLYPH", [r, c, o] => do return [.setglyph (← asmS8 r) (← asmS8 c) (← asmU16 o)]
  | "RANDOMIZE", [r, c, h, w] => do return [.randomize (← asmS8 r) (← asmS8 c) (← asmS8 h) (← asmS8 w)]
  | "DRAWCHAR", [r, c, k] => do return [.drawchar (← asmS8 r) (← asmS8 c) (← asmU8 k)]
  | "DRAWTEXT", [r, c, t] => do return [.drawtext (← asmS8 r) (← asmS8 c) (← asmText t)]
  | "DRAWCHARSET", [] => some [.drawcharset]
  | "RENDER", [r, c, h, w] => do return [.render (← asmS8 r) (← asmS8 c) (← asmS8 h) (← asmS8 w)]
  | "UPDATE", [] => some [.update]
  | "SETINK", [v] => do return [.setink (← asmS8 v)]
  | "SETPAPER", [v] => do return [.setpaper (← asmS8 v)]
  | "READREG", [x] => do return [.readreg (← asmU8 x)]
  | "CLS", [i, p] => do return expandPseudo (.cls (← asmS8 i) (← asmS8 p))
  | "COLOR", [i, p] => do return expandPseudo (.color (← asmS8 i) (← asmS8 p))
  | "REFRESH", [] => some (expandPseudo .refresh)
  | "RENDERALL", [] => some (expandPseudo .renderall)
  | _, _ => none

/-- The commands of one line; an empty line or a comment has none (DESIGN CHOICE, log entry 16). -/
def assembleLine (line : List Char) : Option (List Instr) :=
  match tokens false [] [] line with
  | some [] => some []
  | some (.word m :: rest) => (operandTokens rest).bind fun ops => asmCommand (String.ofList m) ops
  | _ => none

/-- The bytes of a program, line after line, with no padding (R42). -/
def assemble (lines : List (List Char)) : Option (List Byte) :=
  (lines.mapM assembleLine).map fun is => is.flatten.flatMap encode

end Sys2Proof.Machine
end

