-- ==== Sys2Proof/Machine/HostPort.lean ====
section
/-! DEFINITION. What the outside can do to the block (R85): send command bytes, read the status port, assert reset
(`resetBlock` of Machine/Ops.lean), answer entropy draws; and the run states that the host can tell apart (R86). -/

namespace Sys2Proof.Machine

/-- The host sends bytes, in any chunking, between steps; a halted block leaves them unconsumed (R78, R85; DESIGN CHOICE,
log entry 17). -/
def hostSend (bytes : List Byte) (s : State) : State := { s with input := s.input ++ bytes }

/-- The entropy source makes answers ready (R85). -/
def entropySend (bytes : List Byte) (s : State) : State := { s with answers := s.answers ++ bytes }

/-- What the status port returns (R83). -/
structure StatusPort where
  status : Byte
  faultInfo : Byte
  faultPos : StreamPos
  cmdpos : StreamPos
  deriving DecidableEq, Repr

/-- A read of the status port, in any run state and without a side effect (R83). -/
def statusRead (s : State) : StatusPort where
  status := s.status
  faultInfo := s.faultInfo
  faultPos := s.faultPos
  cmdpos := s.cmdpos

/-- The three run states (R86). -/
inductive RunState where
  | running
  | waiting
  | halted
  deriving DecidableEq, Repr

/-- The run state of the processor (R86). -/
def runState (s : State) : RunState :=
  if halted s = true then .halted
  else
    match decode (stream s) with
    | .ok _ => .running
    | .error .incomplete => .waiting

end Sys2Proof.Machine
end

