-- ==== Sys2Proof/Safety.lean ====
section
/-! DEFINITION. How a run ends (R86), the invariant of the machine (what every step keeps), and the words that the
statements share: what a cell holds, which bytes a text stores to, which bytes stay as they are. -/

namespace Sys2Proof.Machine

/-- A run ends successfully here, the host having sent its whole stream: WAITING with PENDING empty (R86). -/
def endsWell (s : State) : Prop := runState s = .waiting ∧ stream s = []

/-- A run that ends here has failed: HALTED, or WAITING with a command sent only in part (R86). -/
def endsFailed (s : State) : Prop := runState s = .halted ∨ (runState s = .waiting ∧ stream s ≠ [])

/-- The fault record is one that R19 to R21 and R77 allow: nothing recorded, or one of the two causes with its byte and
the position CMDPOS still has. -/
def faultRecordLegal (s : State) : Prop :=
  (s.status = 0x00#8 ∧ s.faultInfo = 0 ∧ s.faultPos = 0) ∨
  (s.status = 0x11#8 ∧ 0x0E ≤ s.faultInfo.toNat ∧ s.faultPos = s.cmdpos) ∨
  (s.status = 0x21#8 ∧ 7 ≤ s.faultInfo.toNat ∧ s.faultPos = s.cmdpos)

/-- PENDING holds an unfinished command: 0 to 65539 bytes from which the decoder reads none (R15, R26). -/
def pendingUnfinished (s : State) : Prop :=
  decode s.pending = .error .incomplete ∧ s.pending.length ≤ 65539

/-- The invariant: both planes in canonical form inside their address spaces, a legal fault record, and PENDING an
unfinished command. -/
structure State.Inv (s : State) : Prop where
  pixWf : Memory.wf pixSize s.pix
  attrWf : Memory.wf attrSize s.attr
  faultLegal : faultRecordLegal s
  pendingOk : pendingUnfinished s

/-! ## Words of the statements -/

/-- Cell (r, c) holds the attribute byte `attr` and, in its subrows 0 to 7, the pixel bytes `line 0` to `line 7`. -/
def cellHolds (r c : Nat) (attr : Byte) (line : Nat → Byte) (s : State) : Prop :=
  memRead .attr (attrAddr r c) s = attr ∧ ∀ i < 8, memRead .pix (pixAddr r i c) s = line i

/-- Every byte of both planes reads as before, but for the bytes that `stored` names. -/
def otherBytesKept (stored : Space → Nat → Prop) (s t : State) : Prop :=
  ∀ sp a, ¬stored sp a → memRead sp a t = memRead sp a s

/-- A character code that has a glyph (R61). -/
def printable (code : Byte) : Prop := 0x20 ≤ code.toNat ∧ code.toNat ≤ 0x7F

/-- The cell that the `k`-th code of a text takes when the text starts at (row, col): the closed form of the loop of
R62. The first row takes `max 1 (32 - col)` codes, every later row 32 (DEDUCED, log entry 14). -/
def textCell (row col : Int) (k : Nat) : Int × Int :=
  let first := max 1 ((columns : Int) - col)
  if (k : Int) < first then (row, col + k)
  else (row + 1 + (k - first) / columns, (k - first) % columns)

/-- The bytes that a text stores to: the nine bytes of the cell of each printable code whose cell is in the grid. -/
def textStores (row col : Int) (codes : List Byte) (sp : Space) (a : Nat) : Prop :=
  ∃ k, ∃ h : k < codes.length, printable codes[k] ∧ inGrid (textCell row col k).1 (textCell row col k).2 = true ∧
    (sp, a) ∈ cellBytes (textCell row col k).1.toNat (textCell row col k).2.toNat

/-- A cell of a region clipped to the grid (R34), said without the clipping function. -/
def inRegion (row col height width : Int) (r c : Nat) : Prop :=
  row ≤ r ∧ (r : Int) < row + height ∧ r < rows ∧ col ≤ c ∧ (c : Int) < col + width ∧ c < columns

/-- The bytes of a region's cells. -/
def regionStores (row col height width : Int) (sp : Space) (a : Nat) : Prop :=
  ∃ r c, inRegion row col height width r c ∧ (sp, a) ∈ cellBytes r c

end Sys2Proof.Machine
end

