-- ==== Sys2Proof/Certificates/Slice0/Obligations.lean ====
section
/-! DEFINITION. The statements about the machine, each with the rule of spec/ that it formalises. A statement that says
`exec i s = .next t` for a `t` written out is the completion of that command, its result and its frame at once: what
the record update does not name is unchanged. -/

open Sys2Proof Sys2Proof.Machine

/-! ## Encoding (spec/30_encoding.md) -/

/-- Decoding an encoded well-formed command gives it back, with every operand at every value, and leaves the rest of
the stream (R42 to R46). -/
def Obligations.DecodeOfEncodeIsTheCommand : Prop :=
  ∀ (i : Instr) (rest : List Byte), i.wf = true → decode (encode i ++ rest) = .ok (i, rest)

/-- Every command that the decoder reads is well-formed, and its encoding is exactly the bytes that were taken. -/
def Obligations.EncodeOfDecodeIsTheBytes : Prop :=
  ∀ (bs : List Byte) (i : Instr) (rest : List Byte), decode bs = .ok (i, rest) → i.wf = true ∧ encode i ++ rest = bs

/-- The length of a command from its first bytes: the table of R46 (its waiting is DecoderWaitsForTheWholeCommand). -/
def Obligations.CommandLengthFromFirstBytes : Prop :=
  cmdLength [] = none ∧
  ∀ (op : Byte) (rest : List Byte),
    (0x0E ≤ op.toNat → cmdLength (op :: rest) = some 1) ∧
    (op.toNat ∈ [0x00, 0x03, 0x08, 0x0A] → cmdLength (op :: rest) = some 1) ∧
    (op.toNat ∈ [0x02, 0x0B, 0x0C, 0x0D] → cmdLength (op :: rest) = some 2) ∧
    (op.toNat = 0x01 → cmdLength (op :: rest) = some 3) ∧
    (op.toNat = 0x06 → cmdLength (op :: rest) = some 4) ∧
    (op.toNat ∈ [0x04, 0x05, 0x09] → cmdLength (op :: rest) = some 5) ∧
    (op.toNat = 0x07 → rest.length < 4 → cmdLength (op :: rest) = none) ∧
    (op.toNat = 0x07 → ∀ b1 b2 b3 b4 more, rest = b1 :: b2 :: b3 :: b4 :: more →
      cmdLength (op :: rest) = some (5 + (b3.toNat + 256 * b4.toNat)))

/-- R46, R48: the decoder reads a command exactly when all the bytes that its length asks for are present, and takes
exactly those. -/
def Obligations.DecoderWaitsForTheWholeCommand : Prop :=
  ∀ bs : List Byte,
    (∀ i rest, decode bs = .ok (i, rest) → cmdLength bs = some (instrLength i) ∧ instrLength i ≤ bs.length ∧
      rest = bs.drop (instrLength i)) ∧
    (decode bs = .error .incomplete ↔ ∀ n, cmdLength bs = some n → bs.length < n)

/-- Words written out from the formats of R44 and the examples of R49 decode to what they stand for. That the last one, a
word of spec/opcode_table.json, is read as bytes in stream order is the model's reading (DEDUCED, log entry 8). -/
def Obligations.WrittenOutWordsDecode : Prop :=
  decode [0x01, 0x09, 0xFD] = .ok (.pack 9 (-3), []) ∧
  decode [0x04, 0x00, 0x00, 0x08, 0x01] = .ok (.setglyph 0 0 264, []) ∧
  decode [0x06, 0x05, 0x0A, 0x41] = .ok (.drawchar 5 10 0x41, []) ∧
  decode [0x07, 0x17, 0x1E, 0x04, 0x00, 0x48, 0x49, 0x41, 0x42] = .ok (.drawtext 23 30 [0x48, 0x49, 0x41, 0x42], []) ∧
  decode [0x09, 0xFF, 0xFF, 0x02, 0x02] = .ok (.render (-1) (-1) 2 2, []) ∧
  decode [0x0B, 0x0E] = .ok (.setink 14, []) ∧
  decode [0x0D, 0x06] = .ok (.readreg 6, []) ∧
  decodeTableWord 40 0x0202FFFF09 = some (.render (-1) (-1) 2 2)

/-- The pseudo-instructions of R50 stand for the commands that its table gives, and a well-formed command assembled
by CLS is three commands in stream order. -/
def Obligations.PseudoInstructionsExpand : Prop :=
  ∀ ink paper : Int,
    expandPseudo (.cls ink paper) = [.setink ink, .setpaper paper, .clear] ∧
    expandPseudo (.color ink paper) = [.setink ink, .setpaper paper] ∧
    expandPseudo .refresh = [.update] ∧
    expandPseudo .renderall = [.render 0 0 24 32]

/-! ## The codec (spec/40_codec.md) -/

/-- R51 and R52's function: the clamp of every integer, and pack of every pair of integers as a number. -/
def Obligations.PackEncodesTheClampedColours : Prop :=
  (∀ v : Int, ((clamp16 v).toNat : Int) = if v < 0 then 0 else if 15 < v then 15 else v) ∧
  ∀ a b : Int,
    let i := (clamp16 a).toNat
    let p := (clamp16 b).toNat
    (pack a b).toNat =
      64 * (if 7 < i ∨ 7 < p then 1 else 0) + 8 * (if 7 < p then p - 8 else p) + (if 7 < i then i - 8 else i)

/-- The facts that the spec itself derives from R52 and R53 (their sentences marked "derived"): bits 7 and 6 of a packed
byte, `pack(k, k+8) = pack(k+8, k+8)`, `pack(unpack(x)) = x & 0x7F`, and the round trip of two colour indices, which
holds exactly when both are in the same brightness half. -/
def Obligations.PackAndUnpackAgree : Prop :=
  (∀ a b : Int, (pack a b).getLsbD 7 = false ∧ ((pack a b).getLsbD 6 = true ↔ 7 < a ∨ 7 < b)) ∧
  (∀ k : Nat, k < 8 →
    pack k (k + 8) = pack (k + 8) (k + 8) ∧ (pack k (k + 8)).toNat = 64 + 8 * k + k) ∧
  (∀ x : Byte, pack (unpack x).1.toNat (unpack x).2.toNat = x &&& 0x7F) ∧
  ∀ i p : Colour,
    (unpack (pack i.toNat p.toNat) = (i, p) ↔ (7 < i.toNat ↔ 7 < p.toNat)) ∧
    (¬(7 < i.toNat ↔ 7 < p.toNat) →
      (unpack (pack i.toNat p.toNat)).1.toNat = i.toNat % 8 + 8 ∧
      (unpack (pack i.toNat p.toNat)).2.toNat = p.toNat % 8 + 8)

/-- R54: the command PACK, from its three bytes: it answers one byte and changes nothing else but CMDPOS. -/
def Obligations.PackAnswersOneByte : Prop :=
  (∀ (x y : Byte) (rest : List Byte), decode (0x01 :: x :: y :: rest) = .ok (.pack x.toInt y.toInt, rest)) ∧
  ∀ (a b : Int) (s : State),
    exec (.pack a b) s = .next { s with
      cmdpos := s.cmdpos + 3, output := s.output ++ [.response (pack a b)] }

/-- R53, R55: the command UNPACK, from its two bytes: it answers the ink index and then the paper index and changes
nothing else but CMDPOS; bit 7 takes no part. -/
def Obligations.UnpackAnswersInkThenPaper : Prop :=
  (∀ (x : Byte) (rest : List Byte), decode (0x02 :: x :: rest) = .ok (.unpack x, rest)) ∧
  ∀ (x : Byte) (s : State), ∃ ink paper : Byte,
    ink.toNat = x.toNat % 8 + 8 * (x.toNat / 64 % 2) ∧ paper.toNat = x.toNat / 8 % 8 + 8 * (x.toNat / 64 % 2) ∧
    (unpack x).1.toNat = ink.toNat ∧ (unpack x).2.toNat = paper.toNat ∧
    exec (.unpack x) s = .next { s with
      cmdpos := s.cmdpos + 2, output := s.output ++ [.response ink, .response paper] }

/-! ## Memory (spec/20_memory.md) -/

/-- A read of a plane after a write gives the byte written at its place, and every other byte of both planes as
before (R13, R28: no space shares addresses with another). -/
def Obligations.PlaneReadAfterWrite : Prop :=
  ∀ (sp sp' : Space) (a a' : Nat) (v : Byte) (s : State),
    memRead sp a (memWrite sp a v s) = v ∧
    ((sp, a) ≠ (sp', a') → memRead sp' a' (memWrite sp a v s) = memRead sp' a' s)

/-- The plane addresses of R30 and R31: the pixel plane is in raster order, each of its bytes is one subrow of exactly
one cell of the grid, and logical pixel (x, y) is in byte `32*y + x div 8`; each attribute byte is one cell's. -/
def Obligations.PixelPlaneIsRasterOrder : Prop :=
  (∀ row s col : Nat, pixAddr row s col = 256 * row + 32 * s + col) ∧
  (∀ x y : Nat, x < 256 → y < 192 →
    pixAddr (y / 8) (y % 8) (x / 8) = 32 * y + x / 8 ∧ 32 * y + x / 8 < 6144) ∧
  (∀ a : Nat, a < 6144 → ∃! rsc : Nat × Nat × Nat,
    rsc.1 < 24 ∧ rsc.2.1 < 8 ∧ rsc.2.2 < 32 ∧ pixAddr rsc.1 rsc.2.1 rsc.2.2 = a) ∧
  (∀ row col : Nat, attrAddr row col = 32 * row + col) ∧
  (∀ a : Nat, a < 768 → ∃! rc : Nat × Nat, rc.1 < 24 ∧ rc.2 < 32 ∧ attrAddr rc.1 rc.2 = a)

/-- R34: the clipped region is the intersection with the grid: it is EMPTY exactly when the overlap is, that is when no
cell of the grid was requested, and else it has the four bounds of the rule and holds exactly the requested cells. The clause on a
height or width below 1 is the rule's sentence marked "derived". -/
def Obligations.ClippedRegionIsTheOverlap : Prop :=
  ∀ row col height width : Int,
    (clipRegion row col height width = none ↔
      min (row + height) 24 ≤ max row 0 ∨ min (col + width) 32 ≤ max col 0) ∧
    (clipRegion row col height width = none ↔ ¬∃ r c, inRegion row col height width r c) ∧
    (height < 1 ∨ width < 1 → clipRegion row col height width = none) ∧
    (∀ g, clipRegion row col height width = some g →
      (g.r0 : Int) = max row 0 ∧ (g.r1 : Int) = min (row + height) 24 ∧
      (g.c0 : Int) = max col 0 ∧ (g.c1 : Int) = min (col + width) 32 ∧
      ∀ r c : Nat, (g.r0 ≤ r ∧ r < g.r1 ∧ g.c0 ≤ c ∧ c < g.c1) ↔ inRegion row col height width r c)

/-! ## Display memory (spec/41_display_memory.md) -/

/-- R58: the command CLEAR, from its byte: it completes; every attribute byte becomes pack(INK, PAPER) and every pixel
byte the clear pattern of its line (R56's function); nothing else changes but CMDPOS. -/
def Obligations.ClearOverwritesBothPlanes : Prop :=
  (∀ rest : List Byte, decode (0x03 :: rest) = .ok (.clear, rest)) ∧
  ∀ s : State, ∃ t : State,
    exec .clear s = .next t ∧
    t = { s with cmdpos := s.cmdpos + 1, pix := t.pix, attr := t.attr } ∧
    (∀ a < 768, memRead .attr a t = pack s.ink.toNat s.paper.toNat) ∧
    (∀ a < 6144, memRead .pix a t = if (a / 32 + s.cfg.clearPhase) % 2 = 0 then 0x55 else 0xAA)

/-- After CLEAR the pixel plane is a checkerboard: pixel (x, y) is set exactly when `x + y + CLEAR_PHASE` is odd, so
pixels that are neighbours across or down differ. R56's sentence marked "derived", and the property its source names. -/
def Obligations.ClearDrawsACheckerboard : Prop :=
  ∀ s : State, ∃ t : State, exec .clear s = .next t ∧
    let pixel (x y : Nat) : Bool := (memRead .pix (32 * y + x / 8) t).getLsbD (7 - x % 8)
    (∀ x y : Nat, x < 256 → y < 192 → (pixel x y = true ↔ (x + y + s.cfg.clearPhase) % 2 = 1)) ∧
    (∀ x y : Nat, x + 1 < 256 → y < 192 → pixel x y ≠ pixel (x + 1) y) ∧
    (∀ x y : Nat, x < 256 → y + 1 < 192 → pixel x y ≠ pixel x (y + 1))

/-- R58: CLEAR overwrites every byte, so what the planes hold after it does not depend on what they held before. -/
def Obligations.ClearForgetsThePlanes : Prop :=
  ∀ s s' : State, s.cfg = s'.cfg → s.ink = s'.ink → s.paper = s'.paper →
    ∃ t t' : State, exec .clear s = .next t ∧ exec .clear s' = .next t' ∧ t.pix = t'.pix ∧ t.attr = t'.attr

/-- R57, R59: the command SETGLYPH, from its five bytes: it completes and writes the nine bytes of its cell, or nothing
when the cell is outside the grid or the glyph offset is above 760; every other byte and every register but CMDPOS is
unchanged. -/
def Obligations.SetglyphWritesOneCellOrNothing : Prop :=
  (∀ (r c lo hi : Byte) (rest : List Byte), decode (0x04 :: r :: c :: lo :: hi :: rest) =
    .ok (.setglyph r.toInt c.toInt (lo.toNat + 256 * hi.toNat), rest)) ∧
  ∀ (row col : Int) (off : Nat) (s : State), ∃ t : State,
    exec (.setglyph row col off) s = .next t ∧
    t = { s with cmdpos := s.cmdpos + 5, pix := t.pix, attr := t.attr } ∧
    (inGrid row col = true → off ≤ 760 →
      cellHolds row.toNat col.toNat (pack s.ink.toNat s.paper.toNat) (fun i => glyphByte s.cfg (off + i)) t) ∧
    otherBytesKept (fun sp a => inGrid row col = true ∧ off ≤ 760 ∧ (sp, a) ∈ cellBytes row.toNat col.toNat) s t ∧
    (¬(inGrid row col = true ∧ off ≤ 760) → t = { s with cmdpos := s.cmdpos + 5 })

/-- The command RANDOMIZE of R60, from its five bytes: it completes; every byte of the clipped region's cells holds the
entropy source's answer to a draw of its own, for whatever answers; every byte outside is unchanged; INK and PAPER and
every other register but CMDPOS are unchanged; a region without a cell of the grid is a no-op that draws nothing. Which
draw a byte takes is not said. That answers come from a field, and then from a free value, is the model's choice
(log entry 4). -/
def Obligations.RandomizeFillsOnlyItsRegion : Prop :=
  (∀ (r c h w : Byte) (rest : List Byte), decode (0x05 :: r :: c :: h :: w :: rest) =
    .ok (.randomize r.toInt c.toInt h.toInt w.toInt, rest)) ∧
  ∀ (row col height width : Int) (s : State), ∃ (t : State) (drawOf : Space → Nat → Nat),
    let h := (min (row + height) 24 - max row 0).toNat
    let w := (min (col + width) 32 - max col 0).toNat
    let n := 9 * (h * w)
    exec (.randomize row col height width) s = .next t ∧
    t = { s with
      cmdpos := s.cmdpos + 5, pix := t.pix, attr := t.attr,
      answers := s.answers.drop n, draws := s.draws + n } ∧
    otherBytesKept (regionStores row col height width) s t ∧
    (∀ sp a, regionStores row col height width sp a →
      drawOf sp a < n ∧
      memRead sp a t = (s.answers[drawOf sp a]?).getD (Config.entropy (s.draws + drawOf sp a))) ∧
    (∀ sp a sp' a', regionStores row col height width sp a → regionStores row col height width sp' a' →
      drawOf sp a = drawOf sp' a' → (sp, a) = (sp', a')) ∧
    ((¬∃ r c, inRegion row col height width r c) → t = { s with cmdpos := s.cmdpos + 5 })

/-! ## Drawing (spec/42_drawing.md) -/

/-- R61, R63: the command DRAWCHAR, from its four bytes: it completes and draws the glyph of a printable code into its
cell, or nothing for another code or a cell outside the grid; every other byte and every register but CMDPOS is
unchanged. -/
def Obligations.DrawcharDrawsOneGlyphOrNothing : Prop :=
  (∀ (r c k : Byte) (rest : List Byte),
    decode (0x06 :: r :: c :: k :: rest) = .ok (.drawchar r.toInt c.toInt k, rest)) ∧
  ∀ (row col : Int) (code : Byte) (s : State), ∃ t : State,
    exec (.drawchar row col code) s = .next t ∧
    t = { s with cmdpos := s.cmdpos + 4, pix := t.pix, attr := t.attr } ∧
    (inGrid row col = true → printable code →
      cellHolds row.toNat col.toNat (pack s.ink.toNat s.paper.toNat)
        (fun i => glyphByte s.cfg ((code.toNat - 0x20) * 8 + i)) t) ∧
    otherBytesKept (fun sp a => inGrid row col = true ∧ printable code ∧ (sp, a) ∈ cellBytes row.toNat col.toNat) s t ∧
    (¬(inGrid row col = true ∧ printable code) → t = { s with cmdpos := s.cmdpos + 4 })

/-- R62, R64: DRAWTEXT is its codes drawn one by one. A text of no codes, or one at row 24 or below, draws nothing; any
other draws its first code as DRAWCHAR does, moves one column to the right, goes on at column 0 of the next row when
that column is 32 or more, and is then the DRAWTEXT of the other codes from there; and every code counts in CMDPOS. -/
def Obligations.DrawtextIsDrawcharsInTurn : Prop :=
  (∀ (r c lo hi : Byte) (codes rest : List Byte), codes.length = lo.toNat + 256 * hi.toNat →
    decode (0x07 :: r :: c :: lo :: hi :: (codes ++ rest)) = .ok (.drawtext r.toInt c.toInt codes, rest)) ∧
  (∀ (row col : Int) (s : State), exec (.drawtext row col []) s = .next { s with cmdpos := s.cmdpos + 5 }) ∧
  (∀ (row col : Int) (codes : List Byte) (s : State), 24 ≤ row →
    exec (.drawtext row col codes) s = .next { s with cmdpos := s.cmdpos + BitVec.ofNat 32 (5 + codes.length) }) ∧
  ∀ (row col : Int) (code : Byte) (codes : List Byte) (s : State), row < 24 → ∃ t : State,
    exec (.drawchar row col code) s = .next t ∧
    exec (.drawtext row col (code :: codes)) s =
      exec (if 32 ≤ col + 1 then .drawtext (row + 1) 0 codes else .drawtext row (col + 1) codes)
        { t with cmdpos := s.cmdpos + 1 }

/-- DRAWTEXT in closed form: it completes and consumes all its codes; the `k`-th code is drawn in the cell
`textCell row col k`, if it is printable and the cell is in the grid; every other byte and every register but CMDPOS
is unchanged. `textCell` is the model's closed form of the loop of R62 (log entry 14). -/
def Obligations.DrawtextDrawsEachCodeInItsCell : Prop :=
  ∀ (row col : Int) (codes : List Byte) (s : State), ∃ t : State,
    exec (.drawtext row col codes) s = .next t ∧
    t = { s with cmdpos := s.cmdpos + BitVec.ofNat 32 (5 + codes.length), pix := t.pix, attr := t.attr } ∧
    (∀ (k : Nat) (h : k < codes.length), printable codes[k] →
      inGrid (textCell row col k).1 (textCell row col k).2 = true →
      cellHolds (textCell row col k).1.toNat (textCell row col k).2.toNat (pack s.ink.toNat s.paper.toNat)
        (fun i => glyphByte s.cfg ((codes[k].toNat - 0x20) * 8 + i)) t) ∧
    otherBytesKept (textStores row col codes) s t

/-- R62's sentence marked "derived", for every start in the grid: a text that starts at linear cell `32*row + col` draws
its codes in the cells that follow, and every code from index `768 - (32*row + col)` on is dropped. -/
def Obligations.DrawtextTruncatesAtTheLastCell : Prop :=
  ∀ (row col : Nat) (codes : List Byte) (s : State), row < 24 → col < 32 →
    ∃ t : State, exec (.drawtext row col codes) s = .next t ∧
      (∀ (k : Nat) (h : k < codes.length), printable codes[k] → 32 * row + col + k < 768 →
        cellHolds ((32 * row + col + k) / 32) ((32 * row + col + k) % 32) (pack s.ink.toNat s.paper.toNat)
          (fun i => glyphByte s.cfg ((codes[k].toNat - 0x20) * 8 + i)) t) ∧
      (∃ u : State, exec (.drawtext row col (codes.take (768 - (32 * row + col)))) s = .next u ∧
        t.pix = u.pix ∧ t.attr = u.attr)

/-- R65: the command DRAWCHARSET, from its byte: it completes and draws what the DRAWTEXT of the 96 codes 0x20..0x7F
draws from the cell (CHARSET_ROW, CHARSET_COL) on: glyph `k` in the `k`-th cell that follows, those past the last cell
dropped, every cell in the current colours; nothing else changes but CMDPOS. -/
def Obligations.DrawcharsetDrawsThe96Glyphs : Prop :=
  (∀ rest : List Byte, decode (0x08 :: rest) = .ok (.drawcharset, rest)) ∧
  ∀ s : State, ∃ t u : State,
    let first := 32 * s.cfg.charsetRow + s.cfg.charsetCol
    let codes : List Byte := (List.range 96).map fun k => BitVec.ofNat 8 (0x20 + k)
    exec .drawcharset s = .next t ∧
    exec (.drawtext s.cfg.charsetRow s.cfg.charsetCol codes) s = .next u ∧
    t = { s with cmdpos := s.cmdpos + 1, pix := u.pix, attr := u.attr } ∧
    (∀ k < 96, first + k < 768 →
      cellHolds ((first + k) / 32) ((first + k) % 32) (pack s.ink.toNat s.paper.toNat)
        (fun i => glyphByte s.cfg (8 * k + i)) t) ∧
    otherBytesKept
      (fun sp a => ∃ k < 96, first + k < 768 ∧ (sp, a) ∈ cellBytes ((first + k) / 32) ((first + k) % 32)) s t

/-! ## Compositor (spec/43_compositor.md) -/

/-- R66: the colour of a logical pixel: the pixel's bit selects the ink or the paper index of its cell's attribute
byte, and the index its entry of COLOUR_TABLE. -/
def Obligations.LogicalColourSelectsInkOrPaper : Prop :=
  ∀ (x y : Nat) (s : State), x < 256 → y < 192 →
    let bit := (memRead .pix (32 * y + x / 8) s).getLsbD (7 - x % 8)
    let attr := memRead .attr (32 * (y / 8) + x / 8) s
    let bright := 8 * (attr.toNat / 64 % 2)
    (bit = true → ∀ h : attr.toNat % 8 + bright < 16, logicalColour x y s = s.cfg.colourTable[attr.toNat % 8 + bright]) ∧
    (bit = false →
      ∀ h : attr.toNat / 8 % 8 + bright < 16, logicalColour x y s = s.cfg.colourTable[attr.toNat / 8 % 8 + bright]) ∧
    attr.toNat % 8 + bright < 16 ∧ attr.toNat / 8 % 8 + bright < 16

/-- R67, R68, R70: the command RENDER, from its five bytes: it completes. For a region with a cell of the grid it appends
one Present, with the origin and size of the clipped region and a buffer of `4*W*H` bytes in which physical pixel (X, Y)
shows the logical pixel `(c0*8 + X div SCALE, r0*8 + Y div SCALE)`, components R, G, B, A in order; for any other region
it appends nothing; nothing else changes but CMDPOS. -/
def Obligations.RenderPresentsTheClippedRegion : Prop :=
  (∀ (r c h w : Byte) (rest : List Byte), decode (0x09 :: r :: c :: h :: w :: rest) =
    .ok (.render r.toInt c.toInt h.toInt w.toInt, rest)) ∧
  ∀ (row col height width : Int) (s : State),
    let scale := s.cfg.scale
    let r0 := (max row 0).toNat
    let c0 := (max col 0).toNat
    let h := (min (row + height) 24 - max row 0).toNat
    let w := (min (col + width) 32 - max col 0).toNat
    let W := w * 8 * scale
    let H := h * 8 * scale
    ((∃ r c, inRegion row col height width r c) →
      ∃ buf : List Byte,
        exec (.render row col height width) s = .next { s with
          cmdpos := s.cmdpos + 5,
          output := s.output ++ [.present (c0 * 8 * scale) (r0 * 8 * scale) W H buf] } ∧
        buf.length = 4 * (W * H) ∧
        ∀ X Y : Nat, X < W → Y < H →
          let q := logicalColour (c0 * 8 + X / scale) (r0 * 8 + Y / scale) s
          buf[4 * (Y * W + X)]? = some q.r ∧ buf[4 * (Y * W + X) + 1]? = some q.g ∧
          buf[4 * (Y * W + X) + 2]? = some q.b ∧ buf[4 * (Y * W + X) + 3]? = some q.a) ∧
    ((¬∃ r c, inRegion row col height width r c) →
      exec (.render row col height width) s = .next { s with cmdpos := s.cmdpos + 5 })

/-- R71: the command UPDATE, from its byte: it completes and appends one Present of the whole screen, the image of
the region of all cells; nothing else changes but CMDPOS; its Present is the one that RENDER 0, 0, 24, 32 appends
(the rule's sentence marked "derived"). -/
def Obligations.UpdatePresentsTheWholeScreen : Prop :=
  (∀ rest : List Byte, decode (0x0A :: rest) = .ok (.update, rest)) ∧
  ∀ s : State, ∃ buf : List Byte,
    let scale := s.cfg.scale
    let e := Event.present 0 0 (256 * scale) (192 * scale) buf
    exec .update s = .next { s with cmdpos := s.cmdpos + 1, output := s.output ++ [e] } ∧
    exec (.render 0 0 24 32) s = .next { s with cmdpos := s.cmdpos + 5, output := s.output ++ [e] } ∧
    buf.length = 4 * (256 * scale * (192 * scale)) ∧
    ∀ X Y : Nat, X < 256 * scale → Y < 192 * scale →
      let q := logicalColour (X / scale) (Y / scale) s
      let k := 4 * (Y * (256 * scale) + X)
      buf[k]? = some q.r ∧ buf[k + 1]? = some q.g ∧ buf[k + 2]? = some q.b ∧ buf[k + 3]? = some q.a

/-- What a RENDER presents depends on the bytes of its clipped region's cells, on COLOUR_TABLE and on SCALE, and on
nothing else: not on INK or PAPER, not on any other cell, not on bit 7 of an attribute byte (R66 to R68, R24). -/
def Obligations.RenderSeesOnlyItsCells : Prop :=
  ∀ (row col height width : Int) (s s' : State),
    s.cfg.colourTable = s'.cfg.colourTable → s.cfg.scale = s'.cfg.scale →
    (∀ r c, inRegion row col height width r c →
      memRead .attr (attrAddr r c) s &&& 0x7F = memRead .attr (attrAddr r c) s' &&& 0x7F ∧
      ∀ i < 8, memRead .pix (pixAddr r i c) s = memRead .pix (pixAddr r i c) s') →
    ∃ es : List Event,
      exec (.render row col height width) s = .next { s with
        cmdpos := s.cmdpos + 5, output := s.output ++ es } ∧
      exec (.render row col height width) s' = .next { s' with
        cmdpos := s'.cmdpos + 5, output := s'.output ++ es }

/-- R37: two equal RENDERs with nothing between them present the same image. -/
def Obligations.RenderTwicePresentsTheSame : Prop :=
  ∀ (row col height width : Int) (s : State), ∃ (es : List Event) (t u : State),
    exec (.render row col height width) s = .next t ∧ exec (.render row col height width) t = .next u ∧
    t.output = s.output ++ es ∧ u.output = t.output ++ es ∧ es.length ≤ 1

/-! ## Control (spec/44_control.md) -/

/-- R73: the command NOP, from its byte: it advances CMDPOS and does nothing else. -/
def Obligations.NopOnlyAdvances : Prop :=
  (∀ rest : List Byte, decode (0x00 :: rest) = .ok (.nop, rest)) ∧
  ∀ s : State, exec .nop s = .next { s with cmdpos := s.cmdpos + 1 }

/-- R74: the command SETINK, from its two bytes: it stores the clamped colour; no cell changes. -/
def Obligations.SetinkStoresTheClampedColour : Prop :=
  (∀ (x : Byte) (rest : List Byte), decode (0x0B :: x :: rest) = .ok (.setink x.toInt, rest)) ∧
  ∀ (v : Int) (s : State), ∃ c : Colour,
    (c.toNat : Int) = (if v < 0 then 0 else if 15 < v then 15 else v) ∧
    exec (.setink v) s = .next { s with ink := c, cmdpos := s.cmdpos + 2 }

/-- R75: the command SETPAPER, from its two bytes: it stores the clamped colour; no cell changes. -/
def Obligations.SetpaperStoresTheClampedColour : Prop :=
  (∀ (x : Byte) (rest : List Byte), decode (0x0C :: x :: rest) = .ok (.setpaper x.toInt, rest)) ∧
  ∀ (v : Int) (s : State), ∃ c : Colour,
    (c.toNat : Int) = (if v < 0 then 0 else if 15 < v then 15 else v) ∧
    exec (.setpaper v) s = .next { s with paper := c, cmdpos := s.cmdpos + 2 }

/-- R22, R76: the command READREG, from its two bytes: of an index 0..6 it answers the constant, low byte first; of an
index 7..255 it takes the fault RESERVED_REGISTER, answers nothing and leaves CMDPOS alone. -/
def Obligations.ReadregAnswersTheConstantOrFaults : Prop :=
  (∀ (x : Byte) (rest : List Byte), decode (0x0D :: x :: rest) = .ok (.readreg x, rest)) ∧
  ∀ (idx : Byte) (s : State),
    (idx.toNat ≤ 6 → ∃ lo hi : Byte,
      [32, 24, 256, 192, 8, 8, s.cfg.scale][idx.toNat]? = some (lo.toNat + 256 * hi.toNat) ∧
      exec (.readreg idx) s = .next { s with
        cmdpos := s.cmdpos + 2, output := s.output ++ [.response lo, .response hi] }) ∧
    (7 ≤ idx.toNat →
      exec (.readreg idx) s = .next { s with status := 0x21, faultInfo := idx, faultPos := s.cmdpos })

/-! ## Faults, reset and the command stream (spec/60_exceptions.md, spec/70_reset_and_hazards.md) -/

/-- An opcode byte 0x0E..0xFF decodes as a command by itself, and its execution takes the fault ILLEGAL_OPCODE: the
fault record is written, CMDPOS stays, nothing else changes, and the block is halted (R47, R77, R78). -/
def Obligations.IllegalOpcodeFaults : Prop :=
  ∀ (op : Byte) (rest : List Byte) (s : State), 0x0E ≤ op.toNat →
    decode (op :: rest) = .ok (.illegal op, rest) ∧
    ∃ t : State, exec (.illegal op) s = .next t ∧
      t = { s with status := 0x11, faultInfo := op, faultPos := s.cmdpos } ∧ halted t = true

/-- A step runs the command that the decoder reads from the stream, on the state with the command's bytes taken off
the stream and PENDING empty (R39, R42, R46; that the bytes are taken first is the model's choice, log entry 10). -/
def Obligations.StepRunsTheDecodedCommand : Prop :=
  ∀ (s : State) (i : Instr) (rest : List Byte), halted s = false → decode (s.pending ++ s.input) = .ok (i, rest) →
    step s = exec i { s with pending := [], input := rest }

/-- A step runs the well-formed command whose encoding is at the head of the stream, however its bytes are spread over
PENDING and what the host has sent since, and leaves what follows it for later steps (R42, R85). That the bytes are taken
before the command runs, also those of a command that faults, is the model's choice (DESIGN CHOICE, log entry 10). -/
def Obligations.StepRunsTheEncodedCommand : Prop :=
  ∀ (s : State) (i : Instr) (more : List Byte), halted s = false → i.wf = true →
    s.pending ++ s.input = encode i ++ more → step s = exec i { s with pending := [], input := more }

/-- While no complete command is present, nothing happens but that the bytes go to PENDING; once they are there, there
is no step (R46, R86). That a waiting block answers a stuck outcome, and that the bytes go to PENDING in a step of their
own, are the model's choices (log entries 6 and 7). -/
def Obligations.UnfinishedCommandWaits : Prop :=
  ∀ s : State, halted s = false → decode (s.pending ++ s.input) = .error .incomplete →
    (s.input = [] → step s = .fault .waiting) ∧
    (s.input ≠ [] → step s = .next { s with pending := s.pending ++ s.input, input := [] })

/-- In RUNNING the next step executes the complete command at the head of the stream and answers a next state, whatever
the state and the command; no step is ever refused; and the two states without a step are HALTED and a WAITING whose
bytes are all in PENDING (R86, R96). The stuck outcomes are the model's form of them (DESIGN CHOICE, log entry 6), and so
is that a command's bytes are taken before it runs, also those of a command that faults (DESIGN CHOICE, log entry 10). -/
def Obligations.RunningAlwaysExecutes : Prop :=
  ∀ s : State,
    (runState s = .running → ∃ i rest t, decode (s.pending ++ s.input) = .ok (i, rest) ∧
      exec i { s with pending := [], input := rest } = .next t ∧ step s = .next t) ∧
    (∀ r, step s ≠ .refused r) ∧
    (step s = .fault .halted ↔ runState s = .halted) ∧
    (step s = .fault .waiting ↔ runState s = .waiting ∧ s.input = [])

/-- A halted block has no step, whatever the host sends, and takes no byte; only reset ends the halt (R78, R80). That it
answers a stuck outcome is the model's form of "no step" (log entry 6). -/
def Obligations.HaltedBlockTakesNoBytes : Prop :=
  ∀ (s : State) (bytes : List Byte), halted s = true →
    step (hostSend bytes s) = .fault .halted ∧ halted (hostSend bytes s) = true ∧
    hostSend bytes s = { s with input := s.input ++ bytes } ∧
    halted (resetBlock (hostSend bytes s)) = false

/-- R77: the block raises exactly two faults. A step halts a running block exactly when its command is an illegal opcode
or a READREG of a reserved index; then STATUS, FAULT_INFO and FAULT_POS hold the cause, the byte and CMDPOS, and no
register, no plane byte and no output event is changed but these three. -/
def Obligations.OnlyTwoConditionsFault : Prop :=
  ∀ s t : State, halted s = false → step s = .next t →
    (halted t = true ↔ ∃ i rest, decode (s.pending ++ s.input) = .ok (i, rest) ∧
      ((∃ op, i = .illegal op ∧ 0x0E ≤ op.toNat) ∨ ∃ idx, i = .readreg idx ∧ 7 ≤ idx.toNat)) ∧
    (∀ op rest, decode (s.pending ++ s.input) = .ok (.illegal op, rest) →
      t = { s with
        status := 0x11, faultInfo := op, faultPos := s.cmdpos, pending := t.pending, input := t.input }) ∧
    (∀ idx rest, decode (s.pending ++ s.input) = .ok (.readreg idx, rest) → 7 ≤ idx.toNat →
      t = { s with
        status := 0x21, faultInfo := idx, faultPos := s.cmdpos, pending := t.pending, input := t.input })

/-- Only a fault writes the fault record and nothing but reset clears it (R17, R19): a step that does not halt the block
leaves STATUS, FAULT_INFO and FAULT_POS alone, and a halted block has no step. -/
def Obligations.FaultRecordChangesOnlyByAFault : Prop :=
  ∀ s t : State, step s = .next t →
    (halted t = false → t.status = s.status ∧ t.faultInfo = s.faultInfo ∧ t.faultPos = s.faultPos) ∧
    halted s = false

/-- CMDPOS counts the bytes of the commands that completed, modulo 2^32 (R18): a step that does not fault adds the
number of bytes it takes off the stream, which are its first bytes; a step that faults leaves CMDPOS alone; and a byte
that an unfinished command keeps in PENDING is not counted. -/
def Obligations.CmdposCountsConsumedBytes : Prop :=
  ∀ s t : State, step s = .next t →
    (halted t = false → ∃ taken : List Byte,
      s.pending ++ s.input = taken ++ (t.pending ++ t.input) ∧
      t.cmdpos = s.cmdpos + BitVec.ofNat 32 taken.length) ∧
    (halted t = true → t.cmdpos = s.cmdpos) ∧
    (decode (s.pending ++ s.input) = .error .incomplete → t.cmdpos = s.cmdpos)

/-- R16: only SETINK writes INK and only SETPAPER writes PAPER. -/
def Obligations.OnlySettersWriteTheColourRegisters : Prop :=
  ∀ (i : Instr) (s t : State), exec i s = .next t →
    ((∀ v, i ≠ .setink v) → t.ink = s.ink) ∧ ((∀ v, i ≠ .setpaper v) → t.paper = s.paper)

/-- Only CLEAR, SETGLYPH, RANDOMIZE, DRAWCHAR, DRAWTEXT and DRAWCHARSET write a plane (R23, R24, R28). -/
def Obligations.OnlyDrawingCommandsWriteThePlanes : Prop :=
  ∀ (i : Instr) (s t : State), exec i s = .next t →
    (t.pix ≠ s.pix ∨ t.attr ≠ s.attr) →
    i = .clear ∨ i = .drawcharset ∨ (∃ r c o, i = .setglyph r c o) ∨ (∃ r c h w, i = .randomize r c h w) ∨
      (∃ r c k, i = .drawchar r c k) ∨ ∃ r c l, i = .drawtext r c l

/-- R25: the configuration, with GLYPH_ROM and COLOUR_TABLE, is the same before and after every step and across
reset. -/
def Obligations.ConfigurationNeverChanges : Prop :=
  (∀ s t : State, step s = .next t → t.cfg = s.cfg) ∧ (∀ s : State, (resetBlock s).cfg = s.cfg)

/-- R84: the output log only grows; PACK appends one Response, UNPACK and a legal READREG two, RENDER at most one
Present, UPDATE one, and no other command appends an event. -/
def Obligations.EachCommandEmitsItsOwnEvents : Prop :=
  ∀ (i : Instr) (s t : State), exec i s = .next t → ∃ es : List Event, t.output = s.output ++ es ∧
    match i with
    | .pack _ _ => ∃ b, es = [.response b]
    | .unpack _ => ∃ b c, es = [.response b, .response c]
    | .readreg idx => if idx.toNat ≤ 6 then ∃ b c, es = [.response b, .response c] else es = []
    | .render _ _ _ _ => es = [] ∨ ∃ ox oy w h buf, es = [.present ox oy w h buf]
    | .update => ∃ ox oy w h buf, es = [.present ox oy w h buf]
    | _ => es = []

/-- R39, R85: the host may send bytes in any chunking at any time. Bytes sent before a command executes and bytes sent
after it lead to the same state; and bytes of a command that arrive in pieces are executed as if they had arrived
together. The intake step is the model's reading (DEDUCED, log entry 7), and that a command's bytes are taken before it
runs, also those of a command that faults, is its choice (DESIGN CHOICE, log entry 10). -/
def Obligations.ChunkingDoesNotMatter : Prop :=
  (∀ (s t : State) (bytes : List Byte), runState s = .running → step s = .next t →
    step (hostSend bytes s) = .next (hostSend bytes t)) ∧
  (∀ (s t : State) (bytes : List Byte), runState s = .waiting → step s = .next t →
    runState (hostSend bytes s) = .running → step (hostSend bytes s) = step (hostSend bytes t)) ∧
  (∀ (s : State) (p q : List Byte), p ++ q = s.pending ++ s.input → runState s = .running →
    step { s with pending := p, input := q } = step s)

/-- What reset leaves, from every state (R27, R91): the fault record and CMDPOS are 0, PENDING is empty, any halt ends
and the block is WAITING; GLYPH_ROM and COLOUR_TABLE are untouched; nothing is emitted and the output log stays. INK,
PAPER and the planes are unspecified, so nothing is said of them. That the block is WAITING rests on the model's choice
to drop the bytes sent before reset (log entry 9). -/
def Obligations.ResetClearsTheFaultRecord : Prop :=
  ∀ s : State,
    (resetBlock s).status = 0 ∧ (resetBlock s).faultInfo = 0 ∧ (resetBlock s).faultPos = 0 ∧
    (resetBlock s).cmdpos = 0 ∧ (resetBlock s).pending = [] ∧
    halted (resetBlock s) = false ∧ runState (resetBlock s) = .waiting ∧
    (resetBlock s).cfg.glyphRom = s.cfg.glyphRom ∧ (resetBlock s).cfg.colourTable = s.cfg.colourTable ∧
    (resetBlock s).output = s.output ∧
    statusRead State.reset = { status := 0, faultInfo := 0, faultPos := 0, cmdpos := 0 } ∧
    runState State.reset = .waiting

/-- The first byte received after a reset is the opcode at stream offset 0, whatever was pending or unconsumed before
it: the first command sent then is the one that executes, at CMDPOS 0 (R27, R91). That bytes sent before the reset and
not consumed are dropped is the model's reading (DEDUCED, log entry 9), and that the command's bytes are taken before it
runs is its choice (DESIGN CHOICE, log entry 10). -/
def Obligations.FirstCommandAfterReset : Prop :=
  ∀ (s : State) (i : Instr), i.wf = true →
    step (hostSend (encode i) (resetBlock s)) = exec i (resetBlock s) ∧ (resetBlock s).cmdpos = 0

/-- A configuration is accepted exactly when SCALE is 1..65535, entry 8 of the colour table equals entry 0, CLEAR_PHASE
is 0 or 1 and the charset cell is in the grid; any other is refused (R7, R8, R10, R11; log entry 5). -/
def Obligations.IllFormedConfigurationIsRefused : Prop :=
  ∀ p : Params,
    let good := 1 ≤ p.scale ∧ p.scale ≤ 65535 ∧ p.colourTable[8] = p.colourTable[0] ∧ p.clearPhase ≤ 1 ∧
      p.charsetRow ≤ 23 ∧ p.charsetCol ≤ 31
    (good → ∃ c, Config.ofParams p = .ok c ∧ c.toParams = p) ∧ (¬good → ∃ e, Config.ofParams p = .error e)

/-! ## The invariant -/

/-- Reset establishes the invariant (R27, R91; the canonical form of the planes is the model's, log entry 3). -/
def Obligations.InvariantHoldsAtReset : Prop :=
  State.reset.Inv ∧ ∀ s : State, (resetBlock s).Inv

/-- Every step keeps the invariant: the planes stay in canonical form inside their address spaces, STATUS stays 0x00,
0x11 or 0x21 with FAULT_INFO and FAULT_POS to match (so its reserved bits read 0 and CAUSE is 0 exactly when FAULT is),
and PENDING stays an unfinished command of at most 65539 bytes (R15, R19 to R21, R26). The canonical form is the model's
way to write a plane down (DESIGN CHOICE, log entry 3). In a halted block R78 gives PENDING no meaning, and that it is
empty there is the model's choice (DESIGN CHOICE, log entry 10). -/
def Obligations.EveryStepKeepsTheInvariant : Prop :=
  ∀ s t : State, s.Inv → step s = .next t → t.Inv

/-- What the host does to the block keeps the invariant too (R85; its canonical form and what it says of PENDING in a
halted block are the model's, log entries 3 and 10). -/
def Obligations.HostActionsKeepTheInvariant : Prop :=
  ∀ (s : State) (bytes : List Byte), s.Inv → (hostSend bytes s).Inv ∧ (entropySend bytes s).Inv ∧ (resetBlock s).Inv
end

