-- ==== Sys2Proof/Laws/State.lean ====
section
/-! SUPPORT. One lemma per field per update of State, true by rfl, so that no later proof unfolds a record update; and
the reading of a plane byte across the updates that leave the planes alone. -/

namespace Sys2Proof.Machine

variable (s : State)

/-! ### setInk -/

@[simp] theorem setInk_cfg (v : Colour) : (setInk v s).cfg = s.cfg := rfl
@[simp] theorem setInk_ink (v : Colour) : (setInk v s).ink = v := rfl
@[simp] theorem setInk_paper (v : Colour) : (setInk v s).paper = s.paper := rfl
@[simp] theorem setInk_cmdpos (v : Colour) : (setInk v s).cmdpos = s.cmdpos := rfl
@[simp] theorem setInk_status (v : Colour) : (setInk v s).status = s.status := rfl
@[simp] theorem setInk_faultInfo (v : Colour) : (setInk v s).faultInfo = s.faultInfo := rfl
@[simp] theorem setInk_faultPos (v : Colour) : (setInk v s).faultPos = s.faultPos := rfl
@[simp] theorem setInk_pix (v : Colour) : (setInk v s).pix = s.pix := rfl
@[simp] theorem setInk_attr (v : Colour) : (setInk v s).attr = s.attr := rfl
@[simp] theorem setInk_pending (v : Colour) : (setInk v s).pending = s.pending := rfl
@[simp] theorem setInk_input (v : Colour) : (setInk v s).input = s.input := rfl
@[simp] theorem setInk_output (v : Colour) : (setInk v s).output = s.output := rfl
@[simp] theorem setInk_answers (v : Colour) : (setInk v s).answers = s.answers := rfl
@[simp] theorem setInk_draws (v : Colour) : (setInk v s).draws = s.draws := rfl
@[simp] theorem setInk_resets (v : Colour) : (setInk v s).resets = s.resets := rfl
@[simp] theorem setInk_memRead (v : Colour) (sp : Space) (a : Nat) : memRead sp a (setInk v s) = memRead sp a s := by cases sp <;> rfl

/-! ### setPaper -/

@[simp] theorem setPaper_cfg (v : Colour) : (setPaper v s).cfg = s.cfg := rfl
@[simp] theorem setPaper_ink (v : Colour) : (setPaper v s).ink = s.ink := rfl
@[simp] theorem setPaper_paper (v : Colour) : (setPaper v s).paper = v := rfl
@[simp] theorem setPaper_cmdpos (v : Colour) : (setPaper v s).cmdpos = s.cmdpos := rfl
@[simp] theorem setPaper_status (v : Colour) : (setPaper v s).status = s.status := rfl
@[simp] theorem setPaper_faultInfo (v : Colour) : (setPaper v s).faultInfo = s.faultInfo := rfl
@[simp] theorem setPaper_faultPos (v : Colour) : (setPaper v s).faultPos = s.faultPos := rfl
@[simp] theorem setPaper_pix (v : Colour) : (setPaper v s).pix = s.pix := rfl
@[simp] theorem setPaper_attr (v : Colour) : (setPaper v s).attr = s.attr := rfl
@[simp] theorem setPaper_pending (v : Colour) : (setPaper v s).pending = s.pending := rfl
@[simp] theorem setPaper_input (v : Colour) : (setPaper v s).input = s.input := rfl
@[simp] theorem setPaper_output (v : Colour) : (setPaper v s).output = s.output := rfl
@[simp] theorem setPaper_answers (v : Colour) : (setPaper v s).answers = s.answers := rfl
@[simp] theorem setPaper_draws (v : Colour) : (setPaper v s).draws = s.draws := rfl
@[simp] theorem setPaper_resets (v : Colour) : (setPaper v s).resets = s.resets := rfl
@[simp] theorem setPaper_memRead (v : Colour) (sp : Space) (a : Nat) : memRead sp a (setPaper v s) = memRead sp a s := by cases sp <;> rfl

/-! ### advance -/

@[simp] theorem advance_cfg (n : Nat) : (advance n s).cfg = s.cfg := rfl
@[simp] theorem advance_ink (n : Nat) : (advance n s).ink = s.ink := rfl
@[simp] theorem advance_paper (n : Nat) : (advance n s).paper = s.paper := rfl
@[simp] theorem advance_cmdpos (n : Nat) : (advance n s).cmdpos = s.cmdpos + BitVec.ofNat 32 n := rfl
@[simp] theorem advance_status (n : Nat) : (advance n s).status = s.status := rfl
@[simp] theorem advance_faultInfo (n : Nat) : (advance n s).faultInfo = s.faultInfo := rfl
@[simp] theorem advance_faultPos (n : Nat) : (advance n s).faultPos = s.faultPos := rfl
@[simp] theorem advance_pix (n : Nat) : (advance n s).pix = s.pix := rfl
@[simp] theorem advance_attr (n : Nat) : (advance n s).attr = s.attr := rfl
@[simp] theorem advance_pending (n : Nat) : (advance n s).pending = s.pending := rfl
@[simp] theorem advance_input (n : Nat) : (advance n s).input = s.input := rfl
@[simp] theorem advance_output (n : Nat) : (advance n s).output = s.output := rfl
@[simp] theorem advance_answers (n : Nat) : (advance n s).answers = s.answers := rfl
@[simp] theorem advance_draws (n : Nat) : (advance n s).draws = s.draws := rfl
@[simp] theorem advance_resets (n : Nat) : (advance n s).resets = s.resets := rfl
@[simp] theorem advance_memRead (n : Nat) (sp : Space) (a : Nat) : memRead sp a (advance n s) = memRead sp a s := by cases sp <;> rfl

/-! ### emit -/

@[simp] theorem emit_cfg (e : Event) : (emit e s).cfg = s.cfg := rfl
@[simp] theorem emit_ink (e : Event) : (emit e s).ink = s.ink := rfl
@[simp] theorem emit_paper (e : Event) : (emit e s).paper = s.paper := rfl
@[simp] theorem emit_cmdpos (e : Event) : (emit e s).cmdpos = s.cmdpos := rfl
@[simp] theorem emit_status (e : Event) : (emit e s).status = s.status := rfl
@[simp] theorem emit_faultInfo (e : Event) : (emit e s).faultInfo = s.faultInfo := rfl
@[simp] theorem emit_faultPos (e : Event) : (emit e s).faultPos = s.faultPos := rfl
@[simp] theorem emit_pix (e : Event) : (emit e s).pix = s.pix := rfl
@[simp] theorem emit_attr (e : Event) : (emit e s).attr = s.attr := rfl
@[simp] theorem emit_pending (e : Event) : (emit e s).pending = s.pending := rfl
@[simp] theorem emit_input (e : Event) : (emit e s).input = s.input := rfl
@[simp] theorem emit_output (e : Event) : (emit e s).output = s.output ++ [e] := rfl
@[simp] theorem emit_answers (e : Event) : (emit e s).answers = s.answers := rfl
@[simp] theorem emit_draws (e : Event) : (emit e s).draws = s.draws := rfl
@[simp] theorem emit_resets (e : Event) : (emit e s).resets = s.resets := rfl
@[simp] theorem emit_memRead (e : Event) (sp : Space) (a : Nat) : memRead sp a (emit e s) = memRead sp a s := by cases sp <;> rfl

/-! ### takeAnswer -/

@[simp] theorem takeAnswer_cfg : (takeAnswer s).cfg = s.cfg := rfl
@[simp] theorem takeAnswer_ink : (takeAnswer s).ink = s.ink := rfl
@[simp] theorem takeAnswer_paper : (takeAnswer s).paper = s.paper := rfl
@[simp] theorem takeAnswer_cmdpos : (takeAnswer s).cmdpos = s.cmdpos := rfl
@[simp] theorem takeAnswer_status : (takeAnswer s).status = s.status := rfl
@[simp] theorem takeAnswer_faultInfo : (takeAnswer s).faultInfo = s.faultInfo := rfl
@[simp] theorem takeAnswer_faultPos : (takeAnswer s).faultPos = s.faultPos := rfl
@[simp] theorem takeAnswer_pix : (takeAnswer s).pix = s.pix := rfl
@[simp] theorem takeAnswer_attr : (takeAnswer s).attr = s.attr := rfl
@[simp] theorem takeAnswer_pending : (takeAnswer s).pending = s.pending := rfl
@[simp] theorem takeAnswer_input : (takeAnswer s).input = s.input := rfl
@[simp] theorem takeAnswer_output : (takeAnswer s).output = s.output := rfl
@[simp] theorem takeAnswer_answers : (takeAnswer s).answers = s.answers.tail := rfl
@[simp] theorem takeAnswer_draws : (takeAnswer s).draws = s.draws + 1 := rfl
@[simp] theorem takeAnswer_resets : (takeAnswer s).resets = s.resets := rfl
@[simp] theorem takeAnswer_memRead (sp : Space) (a : Nat) : memRead sp a (takeAnswer s) = memRead sp a s := by cases sp <;> rfl

/-! ### raiseFault -/

@[simp] theorem raiseFault_cfg (c : Cause) (b : Byte) : (raiseFault c b s).cfg = s.cfg := rfl
@[simp] theorem raiseFault_ink (c : Cause) (b : Byte) : (raiseFault c b s).ink = s.ink := rfl
@[simp] theorem raiseFault_paper (c : Cause) (b : Byte) : (raiseFault c b s).paper = s.paper := rfl
@[simp] theorem raiseFault_cmdpos (c : Cause) (b : Byte) : (raiseFault c b s).cmdpos = s.cmdpos := rfl
@[simp] theorem raiseFault_status (c : Cause) (b : Byte) : (raiseFault c b s).status = faultStatus c := rfl
@[simp] theorem raiseFault_faultInfo (c : Cause) (b : Byte) : (raiseFault c b s).faultInfo = b := rfl
@[simp] theorem raiseFault_faultPos (c : Cause) (b : Byte) : (raiseFault c b s).faultPos = s.cmdpos := rfl
@[simp] theorem raiseFault_pix (c : Cause) (b : Byte) : (raiseFault c b s).pix = s.pix := rfl
@[simp] theorem raiseFault_attr (c : Cause) (b : Byte) : (raiseFault c b s).attr = s.attr := rfl
@[simp] theorem raiseFault_pending (c : Cause) (b : Byte) : (raiseFault c b s).pending = s.pending := rfl
@[simp] theorem raiseFault_input (c : Cause) (b : Byte) : (raiseFault c b s).input = s.input := rfl
@[simp] theorem raiseFault_output (c : Cause) (b : Byte) : (raiseFault c b s).output = s.output := rfl
@[simp] theorem raiseFault_answers (c : Cause) (b : Byte) : (raiseFault c b s).answers = s.answers := rfl
@[simp] theorem raiseFault_draws (c : Cause) (b : Byte) : (raiseFault c b s).draws = s.draws := rfl
@[simp] theorem raiseFault_resets (c : Cause) (b : Byte) : (raiseFault c b s).resets = s.resets := rfl
@[simp] theorem raiseFault_memRead (c : Cause) (b : Byte) (sp : Space) (a : Nat) : memRead sp a (raiseFault c b s) = memRead sp a s := by cases sp <;> rfl

/-! ### withRest -/

@[simp] theorem withRest_cfg (r : List Byte) : (withRest r s).cfg = s.cfg := rfl
@[simp] theorem withRest_ink (r : List Byte) : (withRest r s).ink = s.ink := rfl
@[simp] theorem withRest_paper (r : List Byte) : (withRest r s).paper = s.paper := rfl
@[simp] theorem withRest_cmdpos (r : List Byte) : (withRest r s).cmdpos = s.cmdpos := rfl
@[simp] theorem withRest_status (r : List Byte) : (withRest r s).status = s.status := rfl
@[simp] theorem withRest_faultInfo (r : List Byte) : (withRest r s).faultInfo = s.faultInfo := rfl
@[simp] theorem withRest_faultPos (r : List Byte) : (withRest r s).faultPos = s.faultPos := rfl
@[simp] theorem withRest_pix (r : List Byte) : (withRest r s).pix = s.pix := rfl
@[simp] theorem withRest_attr (r : List Byte) : (withRest r s).attr = s.attr := rfl
@[simp] theorem withRest_pending (r : List Byte) : (withRest r s).pending = [] := rfl
@[simp] theorem withRest_input (r : List Byte) : (withRest r s).input = r := rfl
@[simp] theorem withRest_output (r : List Byte) : (withRest r s).output = s.output := rfl
@[simp] theorem withRest_answers (r : List Byte) : (withRest r s).answers = s.answers := rfl
@[simp] theorem withRest_draws (r : List Byte) : (withRest r s).draws = s.draws := rfl
@[simp] theorem withRest_resets (r : List Byte) : (withRest r s).resets = s.resets := rfl
@[simp] theorem withRest_memRead (r : List Byte) (sp : Space) (a : Nat) : memRead sp a (withRest r s) = memRead sp a s := by cases sp <;> rfl

/-! ### takeIn -/

@[simp] theorem takeIn_cfg : (takeIn s).cfg = s.cfg := rfl
@[simp] theorem takeIn_ink : (takeIn s).ink = s.ink := rfl
@[simp] theorem takeIn_paper : (takeIn s).paper = s.paper := rfl
@[simp] theorem takeIn_cmdpos : (takeIn s).cmdpos = s.cmdpos := rfl
@[simp] theorem takeIn_status : (takeIn s).status = s.status := rfl
@[simp] theorem takeIn_faultInfo : (takeIn s).faultInfo = s.faultInfo := rfl
@[simp] theorem takeIn_faultPos : (takeIn s).faultPos = s.faultPos := rfl
@[simp] theorem takeIn_pix : (takeIn s).pix = s.pix := rfl
@[simp] theorem takeIn_attr : (takeIn s).attr = s.attr := rfl
@[simp] theorem takeIn_pending : (takeIn s).pending = stream s := rfl
@[simp] theorem takeIn_input : (takeIn s).input = [] := rfl
@[simp] theorem takeIn_output : (takeIn s).output = s.output := rfl
@[simp] theorem takeIn_answers : (takeIn s).answers = s.answers := rfl
@[simp] theorem takeIn_draws : (takeIn s).draws = s.draws := rfl
@[simp] theorem takeIn_resets : (takeIn s).resets = s.resets := rfl
@[simp] theorem takeIn_memRead (sp : Space) (a : Nat) : memRead sp a (takeIn s) = memRead sp a s := by cases sp <;> rfl

/-! ### hostSend -/

@[simp] theorem hostSend_cfg (bs : List Byte) : (hostSend bs s).cfg = s.cfg := rfl
@[simp] theorem hostSend_ink (bs : List Byte) : (hostSend bs s).ink = s.ink := rfl
@[simp] theorem hostSend_paper (bs : List Byte) : (hostSend bs s).paper = s.paper := rfl
@[simp] theorem hostSend_cmdpos (bs : List Byte) : (hostSend bs s).cmdpos = s.cmdpos := rfl
@[simp] theorem hostSend_status (bs : List Byte) : (hostSend bs s).status = s.status := rfl
@[simp] theorem hostSend_faultInfo (bs : List Byte) : (hostSend bs s).faultInfo = s.faultInfo := rfl
@[simp] theorem hostSend_faultPos (bs : List Byte) : (hostSend bs s).faultPos = s.faultPos := rfl
@[simp] theorem hostSend_pix (bs : List Byte) : (hostSend bs s).pix = s.pix := rfl
@[simp] theorem hostSend_attr (bs : List Byte) : (hostSend bs s).attr = s.attr := rfl
@[simp] theorem hostSend_pending (bs : List Byte) : (hostSend bs s).pending = s.pending := rfl
@[simp] theorem hostSend_input (bs : List Byte) : (hostSend bs s).input = s.input ++ bs := rfl
@[simp] theorem hostSend_output (bs : List Byte) : (hostSend bs s).output = s.output := rfl
@[simp] theorem hostSend_answers (bs : List Byte) : (hostSend bs s).answers = s.answers := rfl
@[simp] theorem hostSend_draws (bs : List Byte) : (hostSend bs s).draws = s.draws := rfl
@[simp] theorem hostSend_resets (bs : List Byte) : (hostSend bs s).resets = s.resets := rfl
@[simp] theorem hostSend_memRead (bs : List Byte) (sp : Space) (a : Nat) : memRead sp a (hostSend bs s) = memRead sp a s := by cases sp <;> rfl

/-! ### entropySend -/

@[simp] theorem entropySend_cfg (bs : List Byte) : (entropySend bs s).cfg = s.cfg := rfl
@[simp] theorem entropySend_ink (bs : List Byte) : (entropySend bs s).ink = s.ink := rfl
@[simp] theorem entropySend_paper (bs : List Byte) : (entropySend bs s).paper = s.paper := rfl
@[simp] theorem entropySend_cmdpos (bs : List Byte) : (entropySend bs s).cmdpos = s.cmdpos := rfl
@[simp] theorem entropySend_status (bs : List Byte) : (entropySend bs s).status = s.status := rfl
@[simp] theorem entropySend_faultInfo (bs : List Byte) : (entropySend bs s).faultInfo = s.faultInfo := rfl
@[simp] theorem entropySend_faultPos (bs : List Byte) : (entropySend bs s).faultPos = s.faultPos := rfl
@[simp] theorem entropySend_pix (bs : List Byte) : (entropySend bs s).pix = s.pix := rfl
@[simp] theorem entropySend_attr (bs : List Byte) : (entropySend bs s).attr = s.attr := rfl
@[simp] theorem entropySend_pending (bs : List Byte) : (entropySend bs s).pending = s.pending := rfl
@[simp] theorem entropySend_input (bs : List Byte) : (entropySend bs s).input = s.input := rfl
@[simp] theorem entropySend_output (bs : List Byte) : (entropySend bs s).output = s.output := rfl
@[simp] theorem entropySend_answers (bs : List Byte) : (entropySend bs s).answers = s.answers ++ bs := rfl
@[simp] theorem entropySend_draws (bs : List Byte) : (entropySend bs s).draws = s.draws := rfl
@[simp] theorem entropySend_resets (bs : List Byte) : (entropySend bs s).resets = s.resets := rfl
@[simp] theorem entropySend_memRead (bs : List Byte) (sp : Space) (a : Nat) : memRead sp a (entropySend bs s) = memRead sp a s := by cases sp <;> rfl

/-! ### resetBlock -/

@[simp] theorem resetBlock_cfg : (resetBlock s).cfg = s.cfg := rfl
@[simp] theorem resetBlock_ink : (resetBlock s).ink = Config.resetInk (s.resets + 1) := rfl
@[simp] theorem resetBlock_paper : (resetBlock s).paper = Config.resetPaper (s.resets + 1) := rfl
@[simp] theorem resetBlock_cmdpos : (resetBlock s).cmdpos = 0 := rfl
@[simp] theorem resetBlock_status : (resetBlock s).status = 0 := rfl
@[simp] theorem resetBlock_faultInfo : (resetBlock s).faultInfo = 0 := rfl
@[simp] theorem resetBlock_faultPos : (resetBlock s).faultPos = 0 := rfl
@[simp] theorem resetBlock_pix : (resetBlock s).pix = [] := rfl
@[simp] theorem resetBlock_attr : (resetBlock s).attr = [] := rfl
@[simp] theorem resetBlock_pending : (resetBlock s).pending = [] := rfl
@[simp] theorem resetBlock_input : (resetBlock s).input = [] := rfl
@[simp] theorem resetBlock_output : (resetBlock s).output = s.output := rfl
@[simp] theorem resetBlock_answers : (resetBlock s).answers = s.answers := rfl
@[simp] theorem resetBlock_draws : (resetBlock s).draws = s.draws := rfl
@[simp] theorem resetBlock_resets : (resetBlock s).resets = s.resets + 1 := rfl

/-! ### setPlane and memWrite -/

@[simp] theorem setPlane_cfg (sp : Space) (m : Memory) : (setPlane sp m s).cfg = s.cfg := by cases sp <;> rfl
@[simp] theorem memWrite_cfg (sp : Space) (a : Nat) (v : Byte) : (memWrite sp a v s).cfg = s.cfg := by cases sp <;> rfl
@[simp] theorem setPlane_ink (sp : Space) (m : Memory) : (setPlane sp m s).ink = s.ink := by cases sp <;> rfl
@[simp] theorem memWrite_ink (sp : Space) (a : Nat) (v : Byte) : (memWrite sp a v s).ink = s.ink := by cases sp <;> rfl
@[simp] theorem setPlane_paper (sp : Space) (m : Memory) : (setPlane sp m s).paper = s.paper := by cases sp <;> rfl
@[simp] theorem memWrite_paper (sp : Space) (a : Nat) (v : Byte) : (memWrite sp a v s).paper = s.paper := by cases sp <;> rfl
@[simp] theorem setPlane_cmdpos (sp : Space) (m : Memory) : (setPlane sp m s).cmdpos = s.cmdpos := by cases sp <;> rfl
@[simp] theorem memWrite_cmdpos (sp : Space) (a : Nat) (v : Byte) : (memWrite sp a v s).cmdpos = s.cmdpos := by cases sp <;> rfl
@[simp] theorem setPlane_status (sp : Space) (m : Memory) : (setPlane sp m s).status = s.status := by cases sp <;> rfl
@[simp] theorem memWrite_status (sp : Space) (a : Nat) (v : Byte) : (memWrite sp a v s).status = s.status := by cases sp <;> rfl
@[simp] theorem setPlane_faultInfo (sp : Space) (m : Memory) : (setPlane sp m s).faultInfo = s.faultInfo := by cases sp <;> rfl
@[simp] theorem memWrite_faultInfo (sp : Space) (a : Nat) (v : Byte) : (memWrite sp a v s).faultInfo = s.faultInfo := by cases sp <;> rfl
@[simp] theorem setPlane_faultPos (sp : Space) (m : Memory) : (setPlane sp m s).faultPos = s.faultPos := by cases sp <;> rfl
@[simp] theorem memWrite_faultPos (sp : Space) (a : Nat) (v : Byte) : (memWrite sp a v s).faultPos = s.faultPos := by cases sp <;> rfl
@[simp] theorem setPlane_pending (sp : Space) (m : Memory) : (setPlane sp m s).pending = s.pending := by cases sp <;> rfl
@[simp] theorem memWrite_pending (sp : Space) (a : Nat) (v : Byte) : (memWrite sp a v s).pending = s.pending := by cases sp <;> rfl
@[simp] theorem setPlane_input (sp : Space) (m : Memory) : (setPlane sp m s).input = s.input := by cases sp <;> rfl
@[simp] theorem memWrite_input (sp : Space) (a : Nat) (v : Byte) : (memWrite sp a v s).input = s.input := by cases sp <;> rfl
@[simp] theorem setPlane_output (sp : Space) (m : Memory) : (setPlane sp m s).output = s.output := by cases sp <;> rfl
@[simp] theorem memWrite_output (sp : Space) (a : Nat) (v : Byte) : (memWrite sp a v s).output = s.output := by cases sp <;> rfl
@[simp] theorem setPlane_answers (sp : Space) (m : Memory) : (setPlane sp m s).answers = s.answers := by cases sp <;> rfl
@[simp] theorem memWrite_answers (sp : Space) (a : Nat) (v : Byte) : (memWrite sp a v s).answers = s.answers := by cases sp <;> rfl
@[simp] theorem setPlane_draws (sp : Space) (m : Memory) : (setPlane sp m s).draws = s.draws := by cases sp <;> rfl
@[simp] theorem memWrite_draws (sp : Space) (a : Nat) (v : Byte) : (memWrite sp a v s).draws = s.draws := by cases sp <;> rfl
@[simp] theorem setPlane_resets (sp : Space) (m : Memory) : (setPlane sp m s).resets = s.resets := by cases sp <;> rfl
@[simp] theorem memWrite_resets (sp : Space) (a : Nat) (v : Byte) : (memWrite sp a v s).resets = s.resets := by cases sp <;> rfl
@[simp] theorem setPlane_pix_pix (m : Memory) : (setPlane .pix m s).pix = m := rfl
@[simp] theorem setPlane_pix_attr (m : Memory) : (setPlane .pix m s).attr = s.attr := rfl
@[simp] theorem setPlane_attr_pix (m : Memory) : (setPlane .attr m s).pix = s.pix := rfl
@[simp] theorem setPlane_attr_attr (m : Memory) : (setPlane .attr m s).attr = m := rfl
@[simp] theorem plane_pix : plane .pix s = s.pix := rfl
@[simp] theorem plane_attr : plane .attr s = s.attr := rfl

/-- Nothing but the two planes takes part in a read of a plane, with the number of the reset. -/
theorem memRead_congr (t : State) (sp : Space) (a : Nat) (h1 : t.pix = s.pix) (h2 : t.attr = s.attr)
    (h3 : t.resets = s.resets) : memRead sp a t = memRead sp a s := by
  cases sp <;> simp [memRead, unlisted, h1, h2, h3]

end Sys2Proof.Machine
end

