-- ==== Sys2Proof/Laws/Codec.lean ====
section
/-! SUPPORT. The attribute codec as arithmetic: clamp16, pack and unpack (R51 to R53). -/

namespace Sys2Proof.Machine

theorem clamp16_of_neg {v : Int} (h : v < 0) : clamp16 v = 0#4 := if_pos h

theorem clamp16_of_large {v : Int} (h : 15 < v) : clamp16 v = 15#4 := by
  rw [clamp16, if_neg (by omega), if_pos h]

theorem clamp16_of_index {v : Int} (h0 : 0 ≤ v) (h1 : v ≤ 15) : clamp16 v = BitVec.ofInt 4 v := by
  rw [clamp16, if_neg (by omega), if_neg (by omega)]

/-- clamp16 is the nearest index of 0..15. -/
theorem clamp16_toNat (v : Int) : ((clamp16 v).toNat : Int) = max 0 (min v 15) := by
  rcases lt_or_ge v 0 with h | h
  · rw [clamp16_of_neg h]; simp; omega
  · rcases lt_or_ge 15 v with h' | h'
    · rw [clamp16_of_large h']; simp; omega
    · rw [clamp16_of_index h h', BitVec.toNat_ofInt]
      omega

/-- A colour register's value clamps to itself. -/
@[simp] theorem clamp16_colour (c : Colour) : clamp16 c.toNat = c := by
  apply BitVec.eq_of_toNat_eq
  have := clamp16_toNat (c.toNat : Int)
  have := c.isLt
  omega

/-- pack sees its arguments through clamp16 only. -/
theorem pack_eq_packColours (a b : Int) : pack a b = packColours (clamp16 a) (clamp16 b) := by
  simp only [packColours, pack, clamp16_colour]

end Sys2Proof.Machine
end

