-- ==== Sys2Proof/Laws/Memory.lean ====
section
/-! SUPPORT. The planes: a read after a write, the canonical form, and what a list of writes or of entropy draws does. -/

namespace Sys2Proof.Machine

/-! ## One plane -/

@[simp] theorem Memory.lookup_nil (a : Nat) : Memory.lookup [] a = none := rfl

theorem Memory.lookup_cons (k : Nat) (v : Byte) (m : Memory) (a : Nat) :
    Memory.lookup ((k, v) :: m) a = if k = a then some v else Memory.lookup m a := rfl

theorem Memory.write_cons (k : Nat) (w : Byte) (m : Memory) (a : Nat) (v : Byte) :
    Memory.write ((k, w) :: m) a v =
      if a < k then (a, v) :: (k, w) :: m
      else if a = k then (a, v) :: m
      else (k, w) :: Memory.write m a v := rfl

@[simp] theorem Memory.lookup_write_same (m : Memory) (a : Nat) (v : Byte) : (m.write a v).lookup a = some v := by
  induction m with
  | nil => simp [Memory.write, Memory.lookup]
  | cons c m ih =>
    obtain ⟨k, w⟩ := c
    rw [Memory.write_cons]
    split
    · simp [Memory.lookup]
    · split
      · simp [Memory.lookup]
      · rename_i h
        rw [Memory.lookup_cons, if_neg (fun e => h e.symm), ih]

theorem Memory.lookup_write_other (m : Memory) (a b : Nat) (v : Byte) (h : a ≠ b) :
    (m.write a v).lookup b = m.lookup b := by
  induction m with
  | nil => simp [Memory.write, Memory.lookup, h]
  | cons c m ih =>
    obtain ⟨k, w⟩ := c
    rw [Memory.write_cons]
    split
    · rw [Memory.lookup_cons, if_neg h]
    · split
      · rename_i e
        subst e
        rw [Memory.lookup_cons, Memory.lookup_cons, if_neg h, if_neg h]
      · rw [Memory.lookup_cons, Memory.lookup_cons, ih]

theorem Memory.mem_write {m : Memory} {a : Nat} {v : Byte} {c : Host.Cell} (h : c ∈ m.write a v) :
    c = (a, v) ∨ c ∈ m := by
  induction m with
  | nil => simpa [Memory.write] using h
  | cons d m ih =>
    obtain ⟨k, w⟩ := d
    rw [Memory.write_cons] at h
    split at h
    · simpa using h
    · split at h
      · rcases List.mem_cons.1 h with h | h
        · exact .inl h
        · exact .inr (List.mem_cons_of_mem _ h)
      · rcases List.mem_cons.1 h with h | h
        · exact .inr (by simp [h])
        · rcases ih h with h | h
          · exact .inl h
          · exact .inr (List.mem_cons_of_mem _ h)

/-- A write inside the plane keeps the canonical form. -/
theorem Memory.wf_write {size : Nat} {m : Memory} {a : Nat} (v : Byte) (h : Memory.wf size m) (ha : a < size) :
    Memory.wf size (m.write a v) := by
  refine ⟨?_, fun c hc => ?_⟩
  · obtain ⟨hp, -⟩ := h
    induction m with
    | nil => simp [Memory.write]
    | cons d m ih =>
      obtain ⟨k, w⟩ := d
      rw [List.pairwise_cons] at hp
      rw [Memory.write_cons]
      split
      · rename_i hk
        refine List.pairwise_cons.2 ⟨fun c hc => ?_, List.pairwise_cons.2 hp⟩
        rcases List.mem_cons.1 hc with hc | hc
        · subst hc; exact hk
        · exact Nat.lt_trans hk (hp.1 c hc)
      · split
        · rename_i e
          subst e
          exact List.pairwise_cons.2 ⟨hp.1, hp.2⟩
        · refine List.pairwise_cons.2 ⟨fun c hc => ?_, ih hp.2⟩
          rcases Memory.mem_write hc with hc | hc
          · subst hc; simp only; omega
          · exact hp.1 c hc
  · rcases Memory.mem_write hc with hc | hc
    · subst hc; exact ha
    · exact h.2 c hc

theorem Memory.wf_nil (size : Nat) : Memory.wf size [] := ⟨List.Pairwise.nil, fun _ h => by cases h⟩

theorem Memory.wf_fill (size : Nat) (f : Nat → Byte) : Memory.wf size (Memory.fill size f) := by
  refine ⟨?_, fun c hc => ?_⟩
  · rw [Memory.fill, List.pairwise_map]
    exact List.pairwise_lt_range
  · obtain ⟨a, ha, rfl⟩ := List.mem_map.1 hc
    exact List.mem_range.1 ha

theorem Memory.lookup_map_mem (f : Nat → Byte) (l : List Nat) (a : Nat) (h : a ∈ l) :
    Memory.lookup (l.map fun a => (a, f a)) a = some (f a) := by
  induction l with
  | nil => simp at h
  | cons b l ih =>
    rw [List.map_cons, Memory.lookup_cons]
    split
    · rename_i e; rw [e]
    · rename_i e
      rcases List.mem_cons.1 h with h | h
      · exact absurd h.symm e
      · exact ih h

/-- Every byte of a filled plane. -/
theorem Memory.lookup_fill {size a : Nat} (f : Nat → Byte) (h : a < size) :
    (Memory.fill size f).lookup a = some (f a) :=
  Memory.lookup_map_mem f _ a (List.mem_range.2 h)

/-- Two planes in canonical form that hold the same written bytes are the same list. -/
theorem Memory.ext_of_wf {size : Nat} {m n : Memory} (hm : Memory.wf size m) (hn : Memory.wf size n)
    (h : ∀ a, m.lookup a = n.lookup a) : m = n := by
  have none_of_lt : ∀ (l : Memory) (a : Nat), (∀ c ∈ l, a < c.1) → l.lookup a = none := by
    intro l a hl
    induction l with
    | nil => rfl
    | cons c l ih =>
      obtain ⟨k, v⟩ := c
      have hk : a < k := hl (k, v) (by simp)
      rw [Memory.lookup_cons, if_neg (by omega)]
      exact ih fun c hc => hl c (by simp [hc])
  induction m generalizing n with
  | nil =>
    cases n with
    | nil => rfl
    | cons c n =>
      obtain ⟨k, v⟩ := c
      simpa [Memory.lookup_cons] using h k
  | cons c m ih =>
    obtain ⟨k, v⟩ := c
    cases n with
    | nil => simpa [Memory.lookup_cons] using h k
    | cons d n =>
      obtain ⟨l, w⟩ := d
      have pm := List.pairwise_cons.1 hm.1
      have pn := List.pairwise_cons.1 hn.1
      have hkl : k = l := by
        rcases Nat.lt_trichotomy k l with hlt | he | hlt
        · have := h k
          rw [Memory.lookup_cons, if_pos rfl, Memory.lookup_cons, if_neg (by omega),
            none_of_lt n k (fun c hc => Nat.lt_trans hlt (pn.1 c hc))] at this
          cases this
        · exact he
        · have := h l
          rw [Memory.lookup_cons, if_neg (by omega), none_of_lt m l (fun c hc => Nat.lt_trans hlt (pm.1 c hc)),
            Memory.lookup_cons, if_pos rfl] at this
          cases this
      subst hkl
      have hvw : v = w := by simpa [Memory.lookup_cons] using h k
      subst hvw
      congr 1
      refine ih ⟨pm.2, fun c hc => hm.2 c (by simp [hc])⟩ ⟨pn.2, fun c hc => hn.2 c (by simp [hc])⟩ fun a => ?_
      by_cases ha : k = a
      · subst ha
        rw [none_of_lt m k pm.1, none_of_lt n k pn.1]
      · have := h a
        rwa [Memory.lookup_cons, if_neg ha, Memory.lookup_cons, if_neg ha] at this

/-! ## Reading and writing the planes of a state -/

/-- A read after a write: the byte written at its place, every other place as before. -/
theorem memRead_memWrite (sp sp' : Space) (a a' : Nat) (v : Byte) (s : State) :
    memRead sp a (memWrite sp' a' v s) = if (sp, a) = (sp', a') then v else memRead sp a s := by
  by_cases h : a' = a
  · subst h
    cases sp <;> cases sp' <;> simp [memRead, memWrite, unlisted]
  · have h' : ¬a = a' := fun e => h e.symm
    cases sp <;> cases sp' <;> simp [memRead, memWrite, unlisted, Memory.lookup_write_other _ _ _ _ h, h']

theorem memRead_setPlane_pix (m : Memory) (a : Nat) (s : State) :
    memRead .pix a (setPlane .pix m s) = (m.lookup a).getD (unlisted .pix a s) := rfl

theorem memRead_setPlane_attr (m : Memory) (a : Nat) (s : State) :
    memRead .attr a (setPlane .attr m s) = (m.lookup a).getD (unlisted .attr a s) := rfl

/-- The planes of a state are in canonical form. -/
abbrev planesWf (s : State) : Prop := Memory.wf pixSize s.pix ∧ Memory.wf attrSize s.attr

theorem memWrite_planesWf {sp : Space} {a : Nat} {s : State} (v : Byte) (h : planesWf s) (ha : a < spaceSize sp) :
    planesWf (memWrite sp a v s) := by
  cases sp
  · exact ⟨Memory.wf_write v h.1 ha, h.2⟩
  · exact ⟨h.1, Memory.wf_write v h.2 ha⟩

/-! ## Lists of writes -/

@[simp] theorem memWriteAll_nil (s : State) : memWriteAll [] s = s := rfl

@[simp] theorem memWriteAll_cons (w : (Space × Nat) × Byte) (ws : List ((Space × Nat) × Byte)) (s : State) :
    memWriteAll (w :: ws) s = memWriteAll ws (memWrite w.1.1 w.1.2 w.2 s) := rfl

/-- A list of writes changes the planes and nothing else. -/
theorem memWriteAll_frame (ws : List ((Space × Nat) × Byte)) (s : State) :
    memWriteAll ws s = { s with pix := (memWriteAll ws s).pix, attr := (memWriteAll ws s).attr } := by
  induction ws generalizing s with
  | nil => rfl
  | cons w ws ih =>
    rw [memWriteAll_cons]
    refine (ih _).trans ?_
    obtain ⟨⟨sp, a⟩, v⟩ := w
    cases sp <;> rfl

theorem memRead_memWriteAll_other (sp : Space) (a : Nat) (ws : List ((Space × Nat) × Byte)) (s : State)
    (h : (sp, a) ∉ ws.map Prod.fst) : memRead sp a (memWriteAll ws s) = memRead sp a s := by
  induction ws generalizing s with
  | nil => rfl
  | cons w ws ih =>
    rw [List.map_cons, List.mem_cons, not_or] at h
    rw [memWriteAll_cons, ih _ h.2, memRead_memWrite, if_neg (by simpa using h.1)]

/-- Each byte of a list of writes to different places reads as written. -/
theorem memRead_memWriteAll_mem (sp : Space) (a : Nat) (v : Byte) (ws : List ((Space × Nat) × Byte)) (s : State)
    (hn : (ws.map Prod.fst).Nodup) (h : ((sp, a), v) ∈ ws) : memRead sp a (memWriteAll ws s) = v := by
  induction ws generalizing s with
  | nil => simp at h
  | cons w ws ih =>
    rw [List.map_cons, List.nodup_cons] at hn
    rw [memWriteAll_cons]
    rcases List.mem_cons.1 h with h | h
    · subst h
      rw [memRead_memWriteAll_other _ _ _ _ hn.1, memRead_memWrite, if_pos rfl]
    · exact ih _ hn.2 h

theorem memWriteAll_planesWf {ws : List ((Space × Nat) × Byte)} {s : State} (h : planesWf s)
    (hw : ∀ w ∈ ws, w.1.2 < spaceSize w.1.1) : planesWf (memWriteAll ws s) := by
  induction ws generalizing s with
  | nil => exact h
  | cons w ws ih =>
    rw [memWriteAll_cons]
    exact ih (memWrite_planesWf _ h (hw w (by simp))) fun w' h' => hw w' (by simp [h'])

/-! ## Lists of entropy draws -/

@[simp] theorem drawAll_nil (s : State) : drawAll [] s = s := rfl

@[simp] theorem drawAll_cons (t : Space × Nat) (ts : List (Space × Nat)) (s : State) :
    drawAll (t :: ts) s = drawAll ts (drawInto t.1 t.2 s) := rfl

/-- A list of draws changes the planes, uses up that many answers, and does nothing else. -/
theorem drawAll_frame (ts : List (Space × Nat)) (s : State) :
    drawAll ts s = { s with
      pix := (drawAll ts s).pix, attr := (drawAll ts s).attr,
      answers := s.answers.drop ts.length, draws := s.draws + ts.length } := by
  induction ts generalizing s with
  | nil => rfl
  | cons t ts ih =>
    rw [drawAll_cons]
    refine (ih _).trans ?_
    obtain ⟨sp, a⟩ := t
    have e1 : (drawInto sp a s).answers = s.answers.drop 1 := by simp [drawInto]
    have e2 : (drawInto sp a s).draws = s.draws + 1 := by simp [drawInto]
    rw [e1, e2, List.drop_drop, List.length_cons, Nat.add_assoc, Nat.add_comm 1 ts.length]
    cases sp <;> rfl

theorem memRead_drawAll_other (sp : Space) (a : Nat) (ts : List (Space × Nat)) (s : State)
    (h : (sp, a) ∉ ts) : memRead sp a (drawAll ts s) = memRead sp a s := by
  induction ts generalizing s with
  | nil => rfl
  | cons t ts ih =>
    rw [List.mem_cons, not_or] at h
    rw [drawAll_cons, ih _ h.2, drawInto, memRead_memWrite, if_neg h.1, takeAnswer_memRead]

theorem drawAll_planesWf {ts : List (Space × Nat)} {s : State} (h : planesWf s)
    (ht : ∀ t ∈ ts, t.2 < spaceSize t.1) : planesWf (drawAll ts s) := by
  induction ts generalizing s with
  | nil => exact h
  | cons t ts ih =>
    rw [drawAll_cons]
    refine ih ?_ fun t' h' => ht t' (by simp [h'])
    exact memWrite_planesWf _ (s := takeAnswer s) h (ht t (by simp))

/-- The answer that the entropy source gives to the `k`-th draw from a state on. -/
def answerAt (k : Nat) (s : State) : Byte := (s.answers[k]?).getD (Config.entropy (s.draws + k))

theorem answerAt_zero (s : State) : answerAt 0 s = entropyAnswer s := by
  unfold answerAt entropyAnswer
  cases s.answers <;> simp

theorem answerAt_drawInto (k : Nat) (sp : Space) (a : Nat) (s : State) :
    answerAt k (drawInto sp a s) = answerAt (k + 1) s := by
  simp [answerAt, drawInto, Nat.add_assoc, Nat.add_comm 1 k]

/-- The `k`-th of different places drawn for holds the `k`-th answer. -/
theorem memRead_drawAll_at {sp : Space} {a : Nat} (ts : List (Space × Nat)) (s : State) (k : Nat) (hn : ts.Nodup)
    (hk : ts[k]? = some (sp, a)) : memRead sp a (drawAll ts s) = answerAt k s := by
  induction ts generalizing s k with
  | nil => simp at hk
  | cons t ts ih =>
    rw [List.nodup_cons] at hn
    rw [drawAll_cons]
    cases k with
    | zero =>
      have e : t = (sp, a) := by simpa using hk
      subst e
      rw [memRead_drawAll_other _ _ _ _ hn.1, drawInto, memRead_memWrite, if_pos rfl, answerAt_zero]
    | succ k =>
      rw [ih _ k hn.2 (by simpa using hk), answerAt_drawInto]

end Sys2Proof.Machine
end

