-- ==== Sys2Proof/Laws/Operands.lean ====
section
/-! SUPPORT. Cells, plane addresses and clipped regions: which bytes a cell has, that different cells share none, and
which cells a clipped region covers. -/

namespace Sys2Proof.Machine

/-! ## Cells -/

theorem inGrid_iff (row col : Int) : inGrid row col = true ↔ 0 ≤ row ∧ row < 24 ∧ 0 ≤ col ∧ col < 32 := by
  simp [inGrid, and_assoc]

theorem inGrid_false_iff (row col : Int) : inGrid row col = false ↔ ¬(0 ≤ row ∧ row < 24 ∧ 0 ≤ col ∧ col < 32) := by
  rw [← inGrid_iff, Bool.not_eq_true]

@[simp] theorem cellBytes_length (r c : Nat) : (cellBytes r c).length = 9 := by simp [cellBytes]

@[simp] theorem mem_cellBytes_attr (r c a : Nat) : (Space.attr, a) ∈ cellBytes r c ↔ a = attrAddr r c := by
  simp [cellBytes]

@[simp] theorem mem_cellBytes_pix (r c a : Nat) : (Space.pix, a) ∈ cellBytes r c ↔ ∃ i < 8, a = pixAddr r i c := by
  simp only [cellBytes, List.mem_cons, List.mem_map, List.mem_range, Prod.mk.injEq, reduceCtorEq, false_and, false_or,
    true_and]
  constructor <;> rintro ⟨i, h, e⟩ <;> exact ⟨i, h, e.symm⟩

theorem cellBytes_nodup (r c : Nat) : (cellBytes r c).Nodup := by
  rw [cellBytes, List.nodup_cons]
  refine ⟨by simp, List.Nodup.map (fun i j h => ?_) List.nodup_range⟩
  simp only [Prod.mk.injEq, true_and, pixAddr, columns] at h
  omega

/-- Different cells share no byte. -/
theorem cellBytes_disjoint {r c r' c' : Nat} {t : Space × Nat} (hc : c < 32) (hc' : c' < 32)
    (h : t ∈ cellBytes r c) (h' : t ∈ cellBytes r' c') : r = r' ∧ c = c' := by
  obtain ⟨sp, a⟩ := t
  cases sp
  · rw [mem_cellBytes_pix] at h h'
    obtain ⟨i, hi, e⟩ := h
    obtain ⟨j, hj, e'⟩ := h'
    simp only [pixAddr, columns] at e e'
    omega
  · rw [mem_cellBytes_attr] at h h'
    simp only [attrAddr, columns] at h h'
    omega

/-- The bytes of a cell of the grid are inside the planes. -/
theorem cellBytes_in_plane {r c : Nat} (hr : r < 24) (hc : c < 32) {t : Space × Nat} (h : t ∈ cellBytes r c) :
    t.2 < spaceSize t.1 := by
  obtain ⟨sp, a⟩ := t
  cases sp
  · rw [mem_cellBytes_pix] at h
    obtain ⟨i, hi, e⟩ := h
    simp only [pixAddr, columns, spaceSize, pixSize] at *
    omega
  · rw [mem_cellBytes_attr] at h
    simp only [attrAddr, columns, spaceSize, attrSize] at *
    omega

/-! ## Regions -/

theorem mem_between (a b n : Nat) : n ∈ between a b ↔ a ≤ n ∧ n < b := by
  simp only [between, List.mem_map, List.mem_range]
  constructor
  · rintro ⟨k, hk, rfl⟩; omega
  · intro h; exact ⟨n - a, by omega, by omega⟩

theorem mem_regionCells (g : Region) (r c : Nat) :
    (r, c) ∈ regionCells g ↔ g.r0 ≤ r ∧ r < g.r1 ∧ g.c0 ≤ c ∧ c < g.c1 := by
  simp [regionCells, mem_between, and_assoc]

theorem mem_regionBytes (g : Region) (t : Space × Nat) :
    t ∈ regionBytes g ↔ ∃ r c, (g.r0 ≤ r ∧ r < g.r1 ∧ g.c0 ≤ c ∧ c < g.c1) ∧ t ∈ cellBytes r c := by
  simp only [regionBytes, List.mem_flatMap, Prod.exists, mem_regionCells]

theorem regionBytes_length (g : Region) : (regionBytes g).length = 9 * ((g.r1 - g.r0) * (g.c1 - g.c0)) := by
  simp [regionBytes, regionCells, between, List.length_flatMap, Function.comp_def, Nat.mul_comm 9]

theorem between_nodup (a b : Nat) : (between a b).Nodup :=
  List.Nodup.map (fun _ _ h => by simpa using h) List.nodup_range

theorem regionCells_nodup (g : Region) : (regionCells g).Nodup := by
  rw [regionCells, List.nodup_flatMap]
  refine ⟨fun r _ => List.Nodup.map (fun _ _ h => by simpa using h) (between_nodup _ _), ?_⟩
  refine (between_nodup g.r0 g.r1).imp fun hne t ht ht' => ?_
  obtain ⟨c, -, rfl⟩ := List.mem_map.1 ht
  obtain ⟨c', -, e⟩ := List.mem_map.1 ht'
  exact hne (Prod.mk.inj e).1.symm

/-- A region that lies in the grid names each of its bytes once. -/
theorem regionBytes_nodup {g : Region} (h : g.c1 ≤ 32) : (regionBytes g).Nodup := by
  rw [regionBytes, List.nodup_flatMap]
  refine ⟨fun _ _ => cellBytes_nodup _ _, ?_⟩
  refine (List.Pairwise.and_mem.1 (regionCells_nodup g)).imp fun {x y} ⟨hx, hy, hne⟩ t ht ht' => hne ?_
  have h1 := (mem_regionCells g x.1 x.2).1 hx
  have h2 := (mem_regionCells g y.1 y.2).1 hy
  have := cellBytes_disjoint (by omega) (by omega) ht ht'
  exact Prod.ext this.1 this.2

/-- What a clipped region is: not empty, inside the grid, and exactly the requested cells of the grid. -/
theorem clipRegion_some {row col height width : Int} {g : Region} (h : clipRegion row col height width = some g) :
    (g.r0 : Int) = max row 0 ∧ (g.r1 : Int) = min (row + height) 24 ∧ (g.c0 : Int) = max col 0 ∧
      (g.c1 : Int) = min (col + width) 32 ∧ g.r0 < g.r1 ∧ g.r1 ≤ 24 ∧ g.c0 < g.c1 ∧ g.c1 ≤ 32 := by
  simp only [clipRegion, rows, columns] at h
  split at h
  · cases h
  · injection h with h
    subst h
    simp only
    omega

theorem clipRegion_some_mem {row col height width : Int} {g : Region} (h : clipRegion row col height width = some g)
    (r c : Nat) : (g.r0 ≤ r ∧ r < g.r1 ∧ g.c0 ≤ c ∧ c < g.c1) ↔ inRegion row col height width r c := by
  have := clipRegion_some h
  simp only [inRegion, rows, columns]
  omega

theorem clipRegion_none {row col height width : Int} (h : clipRegion row col height width = none) (r c : Nat) :
    ¬inRegion row col height width r c := by
  simp only [clipRegion, rows, columns] at h
  split at h
  · simp only [inRegion, rows, columns]
    omega
  · cases h

/-- The bytes of a clipped region are the bytes of the requested cells of the grid. -/
theorem regionBytes_iff_stores {row col height width : Int} {g : Region}
    (h : clipRegion row col height width = some g) (sp : Space) (a : Nat) :
    (sp, a) ∈ regionBytes g ↔ regionStores row col height width sp a := by
  simp only [mem_regionBytes, regionStores, clipRegion_some_mem h]

theorem regionBytes_in_plane {row col height width : Int} {g : Region}
    (h : clipRegion row col height width = some g) {t : Space × Nat} (ht : t ∈ regionBytes g) :
    t.2 < spaceSize t.1 := by
  obtain ⟨r, c, hrc, hm⟩ := (mem_regionBytes g t).1 ht
  have := clipRegion_some h
  exact cellBytes_in_plane (by omega) (by omega) hm

end Sys2Proof.Machine
end

