-- ==== Sys2Proof/Laws/Compositor.lean ====
section
/-! SUPPORT. The image of a region: its length, the byte at each place, and what it reads (R66 to R68). -/

namespace Sys2Proof.Machine

/-- The length of equal pieces put together. -/
theorem length_flatMap_const {α β : Type} (l : List α) (f : α → List β) (m : Nat) (h : ∀ x ∈ l, (f x).length = m) :
    (l.flatMap f).length = l.length * m := by
  induction l with
  | nil => simp
  | cons x l ih =>
    rw [List.flatMap_cons, List.length_append, h x (by simp), ih fun y hy => h y (by simp [hy]), List.length_cons,
      Nat.succ_mul, Nat.add_comm]

/-- An element of equal pieces put together. -/
theorem getElem?_flatMap_const {α β : Type} (l : List α) (f : α → List β) (m : Nat) (h : ∀ x ∈ l, (f x).length = m)
    (i j : Nat) (x : α) (hx : l[i]? = some x) (hj : j < m) : (l.flatMap f)[i * m + j]? = (f x)[j]? := by
  induction l generalizing i with
  | nil => simp at hx
  | cons y l ih =>
    rw [List.flatMap_cons]
    cases i with
    | zero =>
      have e : y = x := by simpa using hx
      subst e
      rw [Nat.zero_mul, Nat.zero_add, List.getElem?_append_left (by rw [h y (by simp)]; exact hj)]
    | succ i =>
      have hy := h y (by simp)
      rw [List.getElem?_append_right (by rw [hy, Nat.succ_mul]; omega), hy]
      have e : (i + 1) * m + j - m = i * m + j := by rw [Nat.succ_mul]; omega
      rw [e]
      exact ih (fun z hz => h z (by simp [hz])) i (by simpa using hx)

@[simp] theorem rgbaBytes_length (q : Rgba) : (rgbaBytes q).length = 4 := rfl

theorem renderRow_length (g : Region) (s : State) (py : Nat) :
    ((List.range (imageWidth g s.cfg.scale)).flatMap fun px =>
      rgbaBytes (logicalColour (g.c0 * 8 + px / s.cfg.scale) (g.r0 * 8 + py / s.cfg.scale) s)).length =
      imageWidth g s.cfg.scale * 4 := by
  rw [length_flatMap_const _ _ 4 (fun _ _ => rfl), List.length_range]

/-- The buffer has four bytes for each physical pixel (R68). -/
theorem renderImage_length (g : Region) (s : State) :
    (renderImage g s).length = 4 * (imageWidth g s.cfg.scale * imageHeight g s.cfg.scale) := by
  rw [renderImage, length_flatMap_const _ _ _ (fun py _ => renderRow_length g s py), List.length_range]
  ring

/-- Byte `k` of physical pixel (X, Y) is component `k` of the logical pixel it shows (R68). -/
theorem renderImage_getElem? (g : Region) (s : State) {px py k : Nat} (hx : px < imageWidth g s.cfg.scale)
    (hy : py < imageHeight g s.cfg.scale) (hk : k < 4) :
    (renderImage g s)[4 * (py * imageWidth g s.cfg.scale + px) + k]? =
      (rgbaBytes (logicalColour (g.c0 * 8 + px / s.cfg.scale) (g.r0 * 8 + py / s.cfg.scale) s))[k]? := by
  have e : 4 * (py * imageWidth g s.cfg.scale + px) + k =
      py * (imageWidth g s.cfg.scale * 4) + (px * 4 + k) := by ring
  rw [e, renderImage, getElem?_flatMap_const _ _ _ (fun y _ => renderRow_length g s y) py (px * 4 + k) py
    (by rw [List.getElem?_range hy]) (by omega)]
  exact getElem?_flatMap_const _ _ 4 (fun _ _ => rfl) px k px (by rw [List.getElem?_range hx]) hk

/-- The image depends on the colour of each logical pixel of the region, and on SCALE. -/
theorem renderImage_congr (g : Region) (s t : State) (hs : s.cfg.scale = t.cfg.scale)
    (h : ∀ x y, g.c0 * 8 ≤ x → x < g.c1 * 8 → g.r0 * 8 ≤ y → y < g.r1 * 8 →
      logicalColour x y s = logicalColour x y t) : renderImage g s = renderImage g t := by
  have mul (n : Nat) : n * 8 * s.cfg.scale = s.cfg.scale * (n * 8) := Nat.mul_comm _ _
  simp only [renderImage, ← hs]
  refine List.flatMap_congr fun py hpy => List.flatMap_congr fun px hpx => ?_
  rw [List.mem_range, imageHeight, mul] at hpy
  rw [List.mem_range, imageWidth, mul] at hpx
  have hy := Nat.div_lt_of_lt_mul hpy
  have hx := Nat.div_lt_of_lt_mul hpx
  generalize py / s.cfg.scale = v at hy ⊢
  generalize px / s.cfg.scale = u at hx ⊢
  rw [h _ _ (by omega) (by omega) (by omega) (by omega)]

/-- Bit 7 of an attribute byte takes no part (R53). -/
theorem unpack_mask (x : Byte) : unpack (x &&& 0x7F#8) = unpack x := by
  revert x; decide

theorem logicalColour_congr {s t : State} (hc : s.cfg.colourTable = t.cfg.colourTable) (x y : Nat)
    (hp : memRead .pix (pixAddr (y / 8) (y % 8) (x / 8)) s = memRead .pix (pixAddr (y / 8) (y % 8) (x / 8)) t)
    (ha : memRead .attr (attrAddr (y / 8) (x / 8)) s &&& 0x7F#8 =
      memRead .attr (attrAddr (y / 8) (x / 8)) t &&& 0x7F#8) : logicalColour x y s = logicalColour x y t := by
  have hu := congrArg unpack ha
  rw [unpack_mask, unpack_mask] at hu
  simp only [logicalColour, hp, hu, colourEntry, hc]

/-- RENDER changes the output log only. -/
theorem renderRegion_frame (row col height width : Int) (s : State) :
    renderRegion row col height width s =
      { s with output := (renderRegion row col height width s).output } := by
  unfold renderRegion
  split <;> rfl

theorem renderRegion_output (row col height width : Int) (s : State) :
    (renderRegion row col height width s).output =
      s.output ++ ((clipRegion row col height width).map fun g => presentEvent g s).toList := by
  unfold renderRegion
  split
  · rename_i h; simp [h]
  · rename_i g h; simp [h]

end Sys2Proof.Machine
end

