-- ==== Sys2Proof/Laws/Config.lean ====
section
/-! SUPPORT. What the proof in a configuration says (R7, R8, R10, R11). -/

namespace Sys2Proof

theorem Params.check_eq_none_iff (p : Params) : p.check = none ↔
    1 ≤ p.scale ∧ p.scale ≤ 65535 ∧ p.colourTable[8] = p.colourTable[0] ∧ p.clearPhase ≤ 1 ∧
      p.charsetRow ≤ 23 ∧ p.charsetCol ≤ 31 := by
  unfold Params.check
  constructor
  · intro h
    split at h
    · cases h
    split at h
    · cases h
    split at h
    · cases h
    split at h
    · cases h
    rename_i h1 h2 h3 h4
    exact ⟨by omega, by omega, by simpa using h2, by omega, by omega, by omega⟩
  · rintro ⟨h1, h2, h3, h4, h5, h6⟩
    rw [if_neg (by omega), if_neg (by simpa using h3), if_neg (by omega), if_neg (by omega)]

theorem Config.bounds (c : Config) :
    1 ≤ c.scale ∧ c.scale ≤ 65535 ∧ c.colourTable[8] = c.colourTable[0] ∧ c.clearPhase ≤ 1 ∧
      c.charsetRow ≤ 23 ∧ c.charsetCol ≤ 31 :=
  (Params.check_eq_none_iff c.toParams).1 c.wf

end Sys2Proof
end

