-- ==== Sys2Proof/Laws/Decode.lean ====
section
/-! SUPPORT. Operand assembly against its encoding (R43), and what the decoder does on short and longer streams. -/

namespace Sys2Proof

theorem sext8_s8Byte {v : Int} (h : fitsS8 v = true) : sext8 (s8Byte v) = v := by
  simp only [fitsS8, Bool.and_eq_true, decide_eq_true_eq] at h
  rw [sext8, s8Byte, BitVec.toInt_ofInt]
  exact Int.bmod_eq_of_le (by omega) (by omega)

theorem s8Byte_sext8 (b : Byte) : s8Byte (sext8 b) = b := by
  rw [sext8, s8Byte, BitVec.ofInt_toInt]

theorem fitsS8_sext8 (b : Byte) : fitsS8 (sext8 b) = true := by
  have h1 := BitVec.toInt_lt (x := b)
  have h2 := BitVec.le_toInt b
  rw [fitsS8, sext8, Bool.and_eq_true]
  exact ⟨decide_eq_true (by omega), decide_eq_true (by omega)⟩

theorem u16_bytes {v : Nat} (h : fitsU16 v = true) : u16 (loByte v) (hiByte v) = v := by
  simp only [fitsU16, decide_eq_true_eq] at h
  simp only [u16, zext8, loByte, hiByte, BitVec.toNat_ofNat]
  omega

theorem u16_le (lo hi : Byte) : u16 lo hi ≤ 65535 := by
  have h1 := lo.isLt
  have h2 := hi.isLt
  simp only [u16, zext8]
  omega

theorem loByte_u16 (lo hi : Byte) : loByte (u16 lo hi) = lo := by
  apply BitVec.eq_of_toNat_eq
  have h1 := lo.isLt
  simp only [u16, zext8, loByte, BitVec.toNat_ofNat]
  omega

theorem hiByte_u16 (lo hi : Byte) : hiByte (u16 lo hi) = hi := by
  apply BitVec.eq_of_toNat_eq
  have h1 := lo.isLt
  have h2 := hi.isLt
  simp only [u16, zext8, hiByte, BitVec.toNat_ofNat]
  omega

@[simp] theorem decode_nil : decode [] = .error .incomplete := rfl

/-- An illegal opcode byte is a command by itself (R46, R47). -/
theorem decode_illegal {op : Byte} (s : List Byte) (h : 0x0E ≤ op.toNat) :
    decode (op :: s) = .ok (.illegal op, s) := by
  simp only [decode]
  split <;> first | omega | rfl

/-- Bytes that come after a command do not change how it is read. -/
theorem decode_append {bs : List Byte} {i : Instr} {rest : List Byte} (more : List Byte)
    (h : decode bs = .ok (i, rest)) : decode (bs ++ more) = .ok (i, rest ++ more) := by
  cases bs with
  | nil => cases h
  | cons op s =>
    rw [List.cons_append]
    simp only [decode] at h ⊢
    split at h
    all_goals try split at h
    all_goals try split at h
    all_goals try cases h
    all_goals simp_all
    all_goals rw [if_pos (by omega), List.take_append_of_le_length (by omega), List.drop_append_of_le_length (by omega)]

/-- A stream from which no command is read is shorter than the longest command. -/
theorem decode_incomplete_length {bs : List Byte} (h : decode bs = .error .incomplete) : bs.length ≤ 65539 := by
  rcases bs with _ | ⟨op, _ | ⟨b1, _ | ⟨b2, _ | ⟨b3, _ | ⟨b4, t⟩⟩⟩⟩⟩
  iterate 5 (· simp)
  have hu := u16_le b3 b4
  simp only [decode] at h
  split at h
  any_goals cases h
  split at h
  · cases h
  · simp only [List.length_cons]; omega

end Sys2Proof
end

