-- ==== Sys2Proof/Laws/Drawing.lean ====
section
/-! SUPPORT. What the drawing micro-operations can do: setGlyph, drawChar and drawText (R57, R61, R62), CLEAR and
RANDOMIZE: their frames, the bytes they write, and that they keep the planes in canonical form. -/

namespace Sys2Proof.Machine

/-! ## setGlyph -/

theorem setGlyph_of_outside {row col : Int} (off : Nat) (s : State) (h : inGrid row col = false) :
    setGlyph row col off s = s := by
  rw [setGlyph, if_pos h]

theorem setGlyph_of_large_offset (row col : Int) {off : Nat} (s : State) (h : 760 < off) :
    setGlyph row col off s = s := by
  rw [setGlyph]
  split
  · rfl
  · rw [if_pos (by omega)]

theorem setGlyph_of_inside {row col : Int} {off : Nat} (s : State) (h : inGrid row col = true) (ho : off ≤ 760) :
    setGlyph row col off s =
      memWriteAll ((cellBytes row.toNat col.toNat).zip (currentAttr s :: glyphRows s.cfg off)) s := by
  rw [setGlyph, if_neg (by simp [h]), if_neg (by omega)]

/-- setGlyph changes the planes and nothing else. -/
theorem setGlyph_frame (row col : Int) (off : Nat) (s : State) :
    setGlyph row col off s =
      { s with pix := (setGlyph row col off s).pix, attr := (setGlyph row col off s).attr } := by
  unfold setGlyph
  split
  · rfl
  · split
    · rfl
    · exact memWriteAll_frame _ _

theorem glyphWrites_places (r c : Nat) (v : Byte) (cfg : Config) (off : Nat) :
    ((cellBytes r c).zip (v :: glyphRows cfg off)).map Prod.fst = cellBytes r c :=
  List.map_fst_zip (by simp [glyphRows])

theorem glyphWrites_attr (r c : Nat) (v : Byte) (cfg : Config) (off : Nat) :
    ((Space.attr, attrAddr r c), v) ∈ (cellBytes r c).zip (v :: glyphRows cfg off) := by
  simp [cellBytes]

theorem glyphWrites_pix (r c i : Nat) (v : Byte) (cfg : Config) (off : Nat) (h : i < 8) :
    ((Space.pix, pixAddr r i c), glyphByte cfg (off + i)) ∈ (cellBytes r c).zip (v :: glyphRows cfg off) := by
  rw [cellBytes, glyphRows, List.zip_cons_cons, List.zip_map']
  exact List.mem_cons_of_mem _ (List.mem_map.2 ⟨i, List.mem_range.2 h, rfl⟩)

/-- The nine bytes that setGlyph writes. -/
theorem setGlyph_cell {row col : Int} {off : Nat} (s : State) (h : inGrid row col = true) (ho : off ≤ 760) :
    cellHolds row.toNat col.toNat (currentAttr s) (fun i => glyphByte s.cfg (off + i)) (setGlyph row col off s) := by
  rw [setGlyph_of_inside s h ho]
  have hn : (((cellBytes row.toNat col.toNat).zip (currentAttr s :: glyphRows s.cfg off)).map Prod.fst).Nodup := by
    rw [glyphWrites_places]; exact cellBytes_nodup _ _
  exact ⟨memRead_memWriteAll_mem _ _ _ _ _ hn (glyphWrites_attr ..),
    fun i hi => memRead_memWriteAll_mem _ _ _ _ _ hn (glyphWrites_pix _ _ _ _ _ _ hi)⟩

/-- setGlyph writes no byte outside its cell. -/
theorem setGlyph_other {row col : Int} {off : Nat} (s : State) {sp : Space} {a : Nat}
    (h : inGrid row col = true → off ≤ 760 → (sp, a) ∉ cellBytes row.toNat col.toNat) :
    memRead sp a (setGlyph row col off s) = memRead sp a s := by
  by_cases hg : inGrid row col = true
  · by_cases ho : off ≤ 760
    · rw [setGlyph_of_inside s hg ho]
      exact memRead_memWriteAll_other _ _ _ _ (by rw [glyphWrites_places]; exact h hg ho)
    · rw [setGlyph_of_large_offset _ _ s (by omega)]
  · rw [setGlyph_of_outside off s (by simpa using hg)]

theorem setGlyph_planesWf {s : State} (row col : Int) (off : Nat) (h : planesWf s) :
    planesWf (setGlyph row col off s) := by
  by_cases hg : inGrid row col = true
  · by_cases ho : off ≤ 760
    · rw [setGlyph_of_inside s hg ho]
      refine memWriteAll_planesWf h fun w hw => ?_
      rw [inGrid_iff] at hg
      exact cellBytes_in_plane (by omega) (by omega) (List.of_mem_zip hw).1
    · rwa [setGlyph_of_large_offset _ _ s (by omega)]
  · rwa [setGlyph_of_outside off s (by simpa using hg)]

/-! ## drawChar -/

theorem glyphOff_le {n : Nat} (h : n ≤ 0x7F) : glyphOff n ≤ 760 := by
  simp only [glyphOff]; omega

theorem drawChar_of_unprintable (row col : Int) {code : Byte} (s : State) (h : ¬printable code) :
    drawChar row col code s = s := by
  simp only [printable] at h
  rw [drawChar, if_pos (by simp only [zext8]; omega)]

theorem drawChar_of_printable (row col : Int) {code : Byte} (s : State) (h : printable code) :
    drawChar row col code s = setGlyph row col (glyphOff code.toNat) s := by
  simp only [printable] at h
  rw [drawChar, if_neg (by simp only [zext8]; omega), zext8]

theorem drawChar_frame (row col : Int) (code : Byte) (s : State) :
    drawChar row col code s =
      { s with pix := (drawChar row col code s).pix, attr := (drawChar row col code s).attr } := by
  unfold drawChar
  split
  · rfl
  · exact setGlyph_frame _ _ _ _

theorem drawChar_cell {row col : Int} {code : Byte} (s : State) (h : inGrid row col = true) (hp : printable code) :
    cellHolds row.toNat col.toNat (currentAttr s) (fun i => glyphByte s.cfg (glyphOff code.toNat + i))
      (drawChar row col code s) := by
  rw [drawChar_of_printable row col s hp]
  exact setGlyph_cell s h (glyphOff_le hp.2)

theorem drawChar_other {row col : Int} {code : Byte} (s : State) {sp : Space} {a : Nat}
    (h : inGrid row col = true → printable code → (sp, a) ∉ cellBytes row.toNat col.toNat) :
    memRead sp a (drawChar row col code s) = memRead sp a s := by
  by_cases hp : printable code
  · rw [drawChar_of_printable row col s hp]
    exact setGlyph_other s fun hg _ => h hg hp
  · rw [drawChar_of_unprintable row col s hp]

theorem drawChar_planesWf {s : State} (row col : Int) (code : Byte) (h : planesWf s) :
    planesWf (drawChar row col code s) := by
  by_cases hp : printable code
  · rw [drawChar_of_printable row col s hp]; exact setGlyph_planesWf _ _ _ h
  · rwa [drawChar_of_unprintable row col s hp]

/-! ## The cells of a text -/

theorem textCell_zero (row col : Int) : textCell row col 0 = (row, col) := by
  simp only [textCell, columns]
  rw [if_pos (by omega)]
  simp

theorem textCell_eq_of_small {col : Int} (row : Int) (k : Nat) (h : col + 1 < 32) :
    textCell row col k =
      if (k : Int) < 32 - col then (row, col + k)
      else (row + 1 + (k - (32 - col)) / 32, (k - (32 - col)) % 32) := by
  simp only [textCell, columns, Nat.cast_ofNat]
  rw [max_eq_right (by omega)]

theorem textCell_eq_of_large {col : Int} (row : Int) (k : Nat) (h : 32 ≤ col + 1) :
    textCell row col k =
      if (k : Int) < 1 then (row, col + k) else (row + 1 + (k - 1) / 32, (k - 1) % 32) := by
  simp only [textCell, columns, Nat.cast_ofNat]
  rw [max_eq_left (by omega)]

theorem textCell_succ (row col : Int) (k : Nat) :
    textCell row col (k + 1) =
      if (32 : Int) ≤ col + 1 then textCell (row + 1) 0 k else textCell row (col + 1) k := by
  split
  · rename_i h
    rw [textCell_eq_of_large _ _ h, textCell_eq_of_small _ _ (by omega)]
    push_cast
    split <;> split <;> apply Prod.ext <;> simp only <;> omega
  · rename_i h
    rw [textCell_eq_of_small _ _ (by omega)]
    by_cases h' : col + 1 + 1 < 32
    · rw [textCell_eq_of_small _ _ h']
      push_cast
      split <;> split <;> apply Prod.ext <;> simp only <;> omega
    · rw [textCell_eq_of_large _ _ (by omega)]
      push_cast
      split <;> split <;> apply Prod.ext <;> simp only <;> omega

theorem textCell_row_ge (row col : Int) (k : Nat) : row ≤ (textCell row col k).1 := by
  simp only [textCell, columns]
  split <;> simp only <;> omega

/-- Two codes of a text never share a cell of the grid. -/
theorem textCell_inj {row col : Int} {j k : Nat} (h : textCell row col j = textCell row col k)
    (hg : inGrid (textCell row col j).1 (textCell row col j).2 = true) : j = k := by
  rw [inGrid_iff] at hg
  revert h hg
  simp only [textCell, columns]
  split <;> split <;> simp only [Prod.mk.injEq] <;> omega

/-! ## drawText -/

@[simp] theorem drawText_nil (row col : Int) (s : State) : drawText row col [] s = s := rfl

theorem drawText_cons (row col : Int) (k : Byte) (ks : List Byte) (s : State) :
    drawText row col (k :: ks) s =
      if (24 : Int) ≤ row then s
      else if (32 : Int) ≤ col + 1 then drawText (row + 1) 0 ks (drawChar row col k s)
      else drawText row (col + 1) ks (drawChar row col k s) := rfl

theorem drawText_frame (row col : Int) (codes : List Byte) (s : State) :
    drawText row col codes s =
      { s with pix := (drawText row col codes s).pix, attr := (drawText row col codes s).attr } := by
  induction codes generalizing row col s with
  | nil => rfl
  | cons k ks ih =>
    rw [drawText_cons]
    split
    · rfl
    · split
      · refine (ih _ _ _).trans ?_
        rw [drawChar_frame row col k s]
      · refine (ih _ _ _).trans ?_
        rw [drawChar_frame row col k s]

theorem drawText_planesWf {s : State} (row col : Int) (codes : List Byte) (h : planesWf s) :
    planesWf (drawText row col codes s) := by
  induction codes generalizing row col s with
  | nil => exact h
  | cons k ks ih =>
    rw [drawText_cons]
    split
    · exact h
    · split
      · exact ih _ _ (drawChar_planesWf _ _ _ h)
      · exact ih _ _ (drawChar_planesWf _ _ _ h)

/-- A text that starts below the grid draws nothing. -/
theorem drawText_below {row : Int} (col : Int) (codes : List Byte) (s : State) (h : 24 ≤ row) :
    drawText row col codes s = s := by
  cases codes with
  | nil => rfl
  | cons k ks => rw [drawText_cons, if_pos h]

/-- A byte that no code of a text stores to reads as before. -/
theorem drawText_other {row col : Int} {codes : List Byte} (s : State) {sp : Space} {a : Nat}
    (h : ¬textStores row col codes sp a) : memRead sp a (drawText row col codes s) = memRead sp a s := by
  induction codes generalizing row col s with
  | nil => rfl
  | cons k ks ih =>
    have h0 : memRead sp a (drawChar row col k s) = memRead sp a s := by
      refine drawChar_other s fun hg hp hm => h ⟨0, by simp, ?_⟩
      rw [textCell_zero]
      exact ⟨hp, hg, hm⟩
    have later : ∀ j (hj : j < ks.length), printable ks[j] →
        inGrid (textCell row col (j + 1)).1 (textCell row col (j + 1)).2 = true →
        (sp, a) ∉ cellBytes (textCell row col (j + 1)).1.toNat (textCell row col (j + 1)).2.toNat :=
      fun j hj hp hg hm => h ⟨j + 1, by simpa using hj, by simpa using hp, hg, hm⟩
    rw [drawText_cons]
    split
    · rfl
    · split
      · rename_i hc
        rw [ih, h0]
        rintro ⟨j, hj, hp, hg, hm⟩
        have e := textCell_succ row col j
        rw [if_pos hc] at e
        rw [← e] at hg hm
        exact later j hj hp hg hm
      · rename_i hc
        rw [ih, h0]
        rintro ⟨j, hj, hp, hg, hm⟩
        have e := textCell_succ row col j
        rw [if_neg hc] at e
        rw [← e] at hg hm
        exact later j hj hp hg hm

theorem cellHolds_congr {r c : Nat} {attr : Byte} {line : Nat → Byte} {s t : State} (h : cellHolds r c attr line s)
    (hk : ∀ sp a, (sp, a) ∈ cellBytes r c → memRead sp a t = memRead sp a s) : cellHolds r c attr line t :=
  ⟨(hk .attr _ (by simp)).trans h.1,
    fun i hi => (hk .pix _ ((mem_cellBytes_pix r c _).2 ⟨i, hi, rfl⟩)).trans (h.2 i hi)⟩

/-- Every printable code of a text whose cell is in the grid is drawn there. -/
theorem drawText_cell {row col : Int} {codes : List Byte} (s : State) {k : Nat} (hk : k < codes.length)
    (hp : printable codes[k]) (hg : inGrid (textCell row col k).1 (textCell row col k).2 = true) :
    cellHolds (textCell row col k).1.toNat (textCell row col k).2.toNat (currentAttr s)
      (fun i => glyphByte s.cfg (glyphOff codes[k].toNat + i)) (drawText row col codes s) := by
  induction codes generalizing row col s k with
  | nil => simp at hk
  | cons b ks ih =>
    have hrow := textCell_row_ge row col k
    have hgrid := (inGrid_iff _ _).1 hg
    have hattr : currentAttr (drawChar row col b s) = currentAttr s := by rw [drawChar_frame]; rfl
    have hcfg : (drawChar row col b s).cfg = s.cfg := by rw [drawChar_frame]
    cases k with
    | zero =>
      have hz := textCell_zero row col
      rw [hz] at hg hgrid ⊢
      have hcell := drawChar_cell s hg hp
      have keep : ∀ r' c' : Int, (∀ j, textCell row col (j + 1) = textCell r' c' j) →
          cellHolds row.toNat col.toNat (currentAttr s)
            (fun i => glyphByte s.cfg (glyphOff b.toNat + i)) (drawText r' c' ks (drawChar row col b s)) := by
        intro r' c' he
        refine cellHolds_congr hcell fun sp a hm => drawText_other _ ?_
        rintro ⟨j, hj, -, hg', hm'⟩
        rw [← he j] at hg' hm'
        have hgj := (inGrid_iff _ _).1 hg'
        have hd := cellBytes_disjoint (by omega) (by omega) hm hm'
        have : textCell row col 0 = textCell row col (j + 1) := by
          rw [hz]; exact Prod.ext (by simp only; omega) (by simp only; omega)
        exact absurd (textCell_inj this (by rw [hz]; exact hg)) (by omega)
      rw [drawText_cons, if_neg (by simp only at hgrid; omega)]
      split
      · rename_i hc
        exact keep _ _ fun j => by rw [textCell_succ, if_pos hc]
      · rename_i hc
        exact keep _ _ fun j => by rw [textCell_succ, if_neg hc]
    | succ j =>
      have hj : j < ks.length := by simpa using hk
      rw [drawText_cons, if_neg (by omega)]
      have e := textCell_succ row col j
      split
      · rename_i hc
        rw [if_pos hc] at e
        rw [e] at hg ⊢
        have := ih (drawChar row col b s) hj (by simpa using hp) hg
        rwa [hattr, hcfg] at this
      · rename_i hc
        rw [if_neg hc] at e
        rw [e] at hg ⊢
        have := ih (drawChar row col b s) hj (by simpa using hp) hg
        rwa [hattr, hcfg] at this

/-! ## The micro-operations and CMDPOS: drawing neither reads nor writes it -/

theorem memWriteAll_advance (n : Nat) (ws : List ((Space × Nat) × Byte)) (s : State) :
    memWriteAll ws (advance n s) = advance n (memWriteAll ws s) := by
  induction ws generalizing s with
  | nil => rfl
  | cons w ws ih =>
    rw [memWriteAll_cons, memWriteAll_cons, ← ih]
    rcases w with ⟨⟨sp, a⟩, v⟩
    cases sp <;> rfl

theorem setGlyph_advance (n : Nat) (row col : Int) (off : Nat) (s : State) :
    setGlyph row col off (advance n s) = advance n (setGlyph row col off s) := by
  unfold setGlyph
  split
  · rfl
  split
  · rfl
  exact memWriteAll_advance n _ s

theorem drawChar_advance (n : Nat) (row col : Int) (code : Byte) (s : State) :
    drawChar row col code (advance n s) = advance n (drawChar row col code s) := by
  unfold drawChar
  split
  · rfl
  exact setGlyph_advance ..

theorem drawText_advance (n : Nat) (row col : Int) (codes : List Byte) (s : State) :
    drawText row col codes (advance n s) = advance n (drawText row col codes s) := by
  induction codes generalizing row col s with
  | nil => rfl
  | cons k ks ih =>
    rw [drawText_cons, drawText_cons]
    split
    · rfl
    split <;> rw [drawChar_advance, ih]

/-! ## CLEAR -/

theorem setPlanes_eq (m n : Memory) (s : State) :
    setPlane .pix m (setPlane .attr n s) = { s with pix := m, attr := n } := rfl

/-- CLEAR writes both planes and nothing else. -/
theorem clearPlanes_eq (s : State) :
    clearPlanes s =
      { s with pix := Memory.fill pixSize (clearPattern s.cfg), attr := Memory.fill attrSize fun _ => currentAttr s } :=
  setPlanes_eq _ _ s

theorem memRead_pix_of_lookup {a : Nat} {v : Byte} {m n : Memory} (s : State) (h : m.lookup a = some v) :
    memRead .pix a { s with pix := m, attr := n } = v := by
  rw [memRead, plane_pix, h, Option.getD_some]

theorem memRead_attr_of_lookup {a : Nat} {v : Byte} {m n : Memory} (s : State) (h : n.lookup a = some v) :
    memRead .attr a { s with pix := m, attr := n } = v := by
  rw [memRead, plane_attr, h, Option.getD_some]

theorem clearPlanes_attr {a : Nat} (s : State) (h : a < attrSize) :
    memRead .attr a (clearPlanes s) = currentAttr s := by
  rw [clearPlanes_eq, memRead_attr_of_lookup s (Memory.lookup_fill _ h)]

theorem clearPlanes_pix {a : Nat} (s : State) (h : a < pixSize) :
    memRead .pix a (clearPlanes s) = clearPattern s.cfg a := by
  rw [clearPlanes_eq, memRead_pix_of_lookup s (Memory.lookup_fill _ h)]

theorem planesWf_of_planes {m n : Memory} (s : State) (hm : Memory.wf pixSize m) (hn : Memory.wf attrSize n) :
    planesWf { s with pix := m, attr := n } :=
  ⟨hm, hn⟩

theorem clearPlanes_planesWf (s : State) : planesWf (clearPlanes s) := by
  rw [clearPlanes_eq]
  exact planesWf_of_planes s (Memory.wf_fill pixSize _) (Memory.wf_fill attrSize _)

/-! ## RANDOMIZE -/

/-- RANDOMIZE changes the planes, uses up entropy answers, and does nothing else. -/
theorem randomizeRegion_frame (row col height width : Int) (s : State) :
    randomizeRegion row col height width s =
      { s with
        pix := (randomizeRegion row col height width s).pix
        attr := (randomizeRegion row col height width s).attr
        answers := (randomizeRegion row col height width s).answers
        draws := (randomizeRegion row col height width s).draws } := by
  unfold randomizeRegion
  split
  · rfl
  · refine (drawAll_frame _ _).trans ?_
    rw [drawAll_frame]

/-- RANDOMIZE writes no byte outside the cells of its clipped region. -/
theorem randomizeRegion_other {row col height width : Int} (s : State) {sp : Space} {a : Nat}
    (h : ¬regionStores row col height width sp a) :
    memRead sp a (randomizeRegion row col height width s) = memRead sp a s := by
  unfold randomizeRegion
  split
  · rfl
  · rename_i g hg
    exact memRead_drawAll_other _ _ _ _ (by rwa [regionBytes_iff_stores hg])

theorem randomizeRegion_planesWf {s : State} (row col height width : Int) (h : planesWf s) :
    planesWf (randomizeRegion row col height width s) := by
  unfold randomizeRegion
  split
  · exact h
  · rename_i g hg
    exact drawAll_planesWf h fun t ht => regionBytes_in_plane hg ht

end Sys2Proof.Machine
end

