-- ==== Sys2Proof/Laws/PerInstr.lean ====
section
/-! SUPPORT. Statements about every command as a term, one lemma per constructor. Family `Length`: the encoder writes as
many bytes as the command is long (R44, R46). -/

namespace Sys2Proof.Laws.Length

/-- The encoding of a command has the command's length. -/
def Statement (i : Instr) : Prop := (encode i).length = instrLength i

theorem nop : Statement .nop := rfl
theorem pack (a b : Int) : Statement (.pack a b) := rfl
theorem unpack (x : Byte) : Statement (.unpack x) := rfl
theorem clear : Statement .clear := rfl
theorem setglyph (row col : Int) (off : Nat) : Statement (.setglyph row col off) := rfl
theorem randomize (row col height width : Int) : Statement (.randomize row col height width) := rfl
theorem drawchar (row col : Int) (code : Byte) : Statement (.drawchar row col code) := rfl
theorem drawtext (row col : Int) (codes : List Byte) : Statement (.drawtext row col codes) := by
  simp only [Statement, encode, instrLength, List.length_cons]
  omega
theorem drawcharset : Statement .drawcharset := rfl
theorem render (row col height width : Int) : Statement (.render row col height width) := rfl
theorem update : Statement .update := rfl
theorem setink (v : Int) : Statement (.setink v) := rfl
theorem setpaper (v : Int) : Statement (.setpaper v) := rfl
theorem readreg (idx : Byte) : Statement (.readreg idx) := rfl
theorem illegal (opcode : Byte) : Statement (.illegal opcode) := rfl

end Sys2Proof.Laws.Length
end

