-- ==== Sys2Proof/Laws/Step.lean ====
section
/-! SUPPORT. What one command can do, said once for all commands, and what one step can do. -/

namespace Sys2Proof.Machine

/-! ## Commands -/

/-- The command faults: one of the two conditions of R77. -/
def faults (i : Instr) : Option (Cause × Byte) :=
  match i with
  | .readreg idx => if 7 ≤ idx.toNat then some (.reservedRegister, idx) else none
  | .illegal op => some (.illegalOpcode, op)
  | _ => none

theorem configReg_none_iff (cfg : Config) (n : Nat) : configReg cfg n = none ↔ 7 ≤ n := by
  constructor
  · intro h
    by_contra hn
    interval_cases n <;> cases h
  · intro h
    obtain ⟨k, rfl⟩ : ∃ k, n = k + 7 := ⟨n - 7, by omega⟩
    rfl

theorem execReadreg_reserved {idx : Byte} (s : State) (h : 7 ≤ idx.toNat) :
    execReadreg idx s = .next (raiseFault .reservedRegister idx s) := by
  rw [execReadreg, zext8, (configReg_none_iff _ _).2 h]

theorem execReadreg_legal {idx : Byte} (s : State) (h : idx.toNat < 7) : ∃ v, configReg s.cfg idx.toNat = some v ∧
    execReadreg idx s =
      .next (advance 2 (emit (.response (v.extractLsb' 8 8)) (emit (.response (v.extractLsb' 0 8)) s))) := by
  cases hv : configReg s.cfg idx.toNat with
  | none => exact absurd ((configReg_none_iff _ _).1 hv) (by omega)
  | some v => exact ⟨v, rfl, by rw [execReadreg, zext8, hv]⟩

/-- A command that faults writes the fault record and does nothing else (R78). -/
theorem exec_faults {i : Instr} {c : Cause} {b : Byte} (s : State) (h : faults i = some (c, b)) :
    exec i s = .next (raiseFault c b s) := by
  cases i <;> simp only [faults, reduceCtorEq] at h
  · split at h
    · rename_i hi
      cases h
      exact execReadreg_reserved s hi
    · cases h
  · cases h; rfl

/-- INK after a command: SETINK alone writes it (R16). -/
def inkAfter : Instr → Colour → Colour
  | .setink v, _ => clamp16 v
  | _, c => c

/-- PAPER after a command: SETPAPER alone writes it (R16). -/
def paperAfter : Instr → Colour → Colour
  | .setpaper v, _ => clamp16 v
  | _, c => c

/-- What a command that does not fault can do. -/
structure Effect (i : Instr) (s t : State) : Prop where
  cfg : t.cfg = s.cfg
  ink : t.ink = inkAfter i s.ink
  paper : t.paper = paperAfter i s.paper
  cmdpos : t.cmdpos = s.cmdpos + BitVec.ofNat 32 (instrLength i)
  status : t.status = s.status
  faultInfo : t.faultInfo = s.faultInfo
  faultPos : t.faultPos = s.faultPos
  planes : planesWf s → planesWf t
  pending : t.pending = s.pending
  input : t.input = s.input
  output : ∃ es, t.output = s.output ++ es
  resets : t.resets = s.resets

/-- The effect of a command that writes planes, and uses entropy, only. -/
theorem effect_of_planes {i : Instr} {n : Nat} {s : State} (m p : Memory) (l : List Byte) (d : Nat)
    (hn : instrLength i = n) (hi : inkAfter i s.ink = s.ink) (hp : paperAfter i s.paper = s.paper)
    (hw : planesWf s → Memory.wf pixSize m ∧ Memory.wf attrSize p) :
    Effect i s (advance n { s with pix := m, attr := p, answers := l, draws := d }) where
  cfg := rfl
  ink := hi.symm
  paper := hp.symm
  cmdpos := by rw [hn]; rfl
  status := rfl
  faultInfo := rfl
  faultPos := rfl
  planes := hw
  pending := rfl
  input := rfl
  output := ⟨[], (List.append_nil _).symm⟩
  resets := rfl

/-- The effect of a command that appends events only. -/
theorem effect_of_output {i : Instr} {n : Nat} {s : State} (es : List Event)
    (hn : instrLength i = n) (hi : inkAfter i s.ink = s.ink) (hp : paperAfter i s.paper = s.paper) :
    Effect i s (advance n { s with output := s.output ++ es }) where
  cfg := rfl
  ink := hi.symm
  paper := hp.symm
  cmdpos := by rw [hn]; rfl
  status := rfl
  faultInfo := rfl
  faultPos := rfl
  planes := id
  pending := rfl
  input := rfl
  output := ⟨es, rfl⟩
  resets := rfl

theorem emit_emit (e f : Event) (s : State) : emit f (emit e s) = { s with output := s.output ++ [e, f] } := by
  simp [emit]

/-- Every command answers a next state: the fault entry of a command that faults, and otherwise the effect above. -/
theorem exec_effect {i : Instr} (s : State) (h : faults i = none) : ∃ t, exec i s = .next t ∧ Effect i s t := by
  cases i
  case nop =>
    refine ⟨_, rfl, ?_⟩
    have := effect_of_output (i := .nop) (s := s) [] rfl rfl rfl
    rwa [List.append_nil] at this
  case pack a b => exact ⟨_, rfl, effect_of_output _ rfl rfl rfl⟩
  case unpack x => exact ⟨_, rfl, by rw [emit_emit]; exact effect_of_output _ rfl rfl rfl⟩
  case clear =>
    refine ⟨_, rfl, ?_⟩
    have hw := clearPlanes_planesWf s
    rw [clearPlanes_eq] at hw ⊢
    generalize Memory.fill pixSize _ = m at hw ⊢
    generalize Memory.fill attrSize _ = n at hw ⊢
    exact effect_of_planes _ _ _ _ rfl rfl rfl fun _ => hw
  case setglyph r c o =>
    refine ⟨_, rfl, ?_⟩
    rw [setGlyph_frame]
    exact effect_of_planes _ _ _ _ rfl rfl rfl (setGlyph_planesWf r c o)
  case randomize r c hh w =>
    refine ⟨_, rfl, ?_⟩
    rw [randomizeRegion_frame]
    exact effect_of_planes _ _ _ _ rfl rfl rfl (randomizeRegion_planesWf r c hh w)
  case drawchar r c k =>
    refine ⟨_, rfl, ?_⟩
    rw [drawChar_frame]
    exact effect_of_planes _ _ _ _ rfl rfl rfl (drawChar_planesWf r c k)
  case drawtext r c l =>
    refine ⟨_, rfl, ?_⟩
    rw [drawText_frame]
    exact effect_of_planes _ _ _ _ rfl rfl rfl (drawText_planesWf r c l)
  case drawcharset =>
    refine ⟨_, rfl, ?_⟩
    rw [drawText_frame]
    exact effect_of_planes _ _ _ _ rfl rfl rfl (drawText_planesWf _ _ charsetCodes)
  case render r c h w =>
    refine ⟨_, rfl, ?_⟩
    rw [renderRegion_frame, renderRegion_output]
    exact effect_of_output _ rfl rfl rfl
  case update => exact ⟨_, rfl, effect_of_output _ rfl rfl rfl⟩
  case setink v => exact ⟨_, rfl, rfl, rfl, rfl, rfl, rfl, rfl, rfl, id, rfl, rfl, ⟨[], (List.append_nil _).symm⟩, rfl⟩
  case setpaper v =>
    exact ⟨_, rfl, rfl, rfl, rfl, rfl, rfl, rfl, rfl, id, rfl, rfl, ⟨[], (List.append_nil _).symm⟩, rfl⟩
  case readreg idx =>
    have hi : idx.toNat < 7 := by
      simp only [faults] at h
      split at h
      · cases h
      · omega
    obtain ⟨v, -, e⟩ := execReadreg_legal s hi
    exact ⟨_, e, by rw [emit_emit]; exact effect_of_output _ rfl rfl rfl⟩
  case illegal op => cases h

/-- Every command answers a next state (R96). -/
theorem exec_completes (i : Instr) (s : State) : ∃ t, exec i s = .next t := by
  cases h : faults i with
  | some cb => exact ⟨_, exec_faults s h⟩
  | none => obtain ⟨t, ht, -⟩ := exec_effect s h; exact ⟨t, ht⟩

/-! ## Commands do not see the command stream -/

/-- The state with another command stream. -/
def withStream (p q : List Byte) (s : State) : State := { s with pending := p, input := q }

theorem memWrite_withStream (p q : List Byte) (sp : Space) (a : Nat) (v : Byte) (s : State) :
    memWrite sp a v (withStream p q s) = withStream p q (memWrite sp a v s) := by cases sp <;> rfl

theorem memWriteAll_withStream (p q : List Byte) (ws : List ((Space × Nat) × Byte)) (s : State) :
    memWriteAll ws (withStream p q s) = withStream p q (memWriteAll ws s) := by
  induction ws generalizing s with
  | nil => rfl
  | cons w ws ih => rw [memWriteAll_cons, memWriteAll_cons, memWrite_withStream, ih]

theorem drawAll_withStream (p q : List Byte) (ts : List (Space × Nat)) (s : State) :
    drawAll ts (withStream p q s) = withStream p q (drawAll ts s) := by
  induction ts generalizing s with
  | nil => rfl
  | cons t ts ih =>
    have e : drawInto t.1 t.2 (withStream p q s) = withStream p q (drawInto t.1 t.2 s) :=
      memWrite_withStream p q t.1 t.2 (entropyAnswer s) (takeAnswer s)
    rw [drawAll_cons, drawAll_cons, e, ih]

theorem setGlyph_withStream (p q : List Byte) (r c : Int) (o : Nat) (s : State) :
    setGlyph r c o (withStream p q s) = withStream p q (setGlyph r c o s) := by
  simp only [setGlyph]
  split
  · rfl
  · split
    · rfl
    · exact memWriteAll_withStream p q _ s

theorem drawChar_withStream (p q : List Byte) (r c : Int) (k : Byte) (s : State) :
    drawChar r c k (withStream p q s) = withStream p q (drawChar r c k s) := by
  simp only [drawChar]
  split
  · rfl
  · exact setGlyph_withStream p q _ _ _ s

theorem drawText_withStream (p q : List Byte) (r c : Int) (l : List Byte) (s : State) :
    drawText r c l (withStream p q s) = withStream p q (drawText r c l s) := by
  induction l generalizing r c s with
  | nil => rfl
  | cons k ks ih =>
    simp only [drawText_cons, drawChar_withStream, ih]
    split
    · rfl
    · split <;> rfl

theorem clearPlanes_withStream (p q : List Byte) (s : State) :
    clearPlanes (withStream p q s) = withStream p q (clearPlanes s) := by
  have e1 : (withStream p q s).cfg = s.cfg := rfl
  have e2 : currentAttr (withStream p q s) = currentAttr s := rfl
  rw [clearPlanes_eq, clearPlanes_eq, e1, e2]
  generalize Memory.fill pixSize _ = m
  generalize Memory.fill attrSize _ = n
  rfl

theorem presentEvent_withStream (p q : List Byte) (g : Region) (s : State) :
    presentEvent g (withStream p q s) = presentEvent g s := rfl

/-- A command does the same whatever the command stream holds, and leaves it alone. -/
theorem exec_withStream {i : Instr} {s t : State} (p q : List Byte) (h : exec i s = .next t) :
    exec i (withStream p q s) = .next (withStream p q t) := by
  cases i <;> simp only [exec] at h ⊢
  case clear =>
    cases h
    rw [execClear, clearPlanes_withStream]
    generalize clearPlanes s = u
    rfl
  case setglyph => cases h; simp only [execSetglyph, setGlyph_withStream]; rfl
  case randomize r c hh w =>
    cases h
    simp only [execRandomize, randomizeRegion]
    split
    · rfl
    · rw [drawAll_withStream]; rfl
  case drawchar => cases h; simp only [execDrawchar, drawChar_withStream]; rfl
  case drawtext => cases h; simp only [execDrawtext, drawText_withStream]; rfl
  case drawcharset =>
    cases h
    have e : (withStream p q s).cfg = s.cfg := rfl
    simp only [execDrawcharset, e, drawText_withStream]
    rfl
  case render r c hh w =>
    cases h
    simp only [execRender, renderRegion]
    split <;> rfl
  case readreg idx =>
    have e : (withStream p q s).cfg = s.cfg := rfl
    simp only [execReadreg, e] at h ⊢
    split at h <;> cases h <;> rfl
  all_goals cases h; rfl

/-! ## One step -/

theorem step_of_halted {s : State} (h : halted s = true) : step s = .fault .halted := if_pos h

theorem step_of_command {s : State} {i : Instr} {rest : List Byte} (hs : halted s = false)
    (h : decode (stream s) = .ok (i, rest)) : step s = exec i (withRest rest s) := by
  rw [step, if_neg (by simp [hs]), h]

theorem step_of_unfinished {s : State} (hs : halted s = false) (h : decode (stream s) = .error .incomplete) :
    step s = if s.input = [] then .fault .waiting else .next (takeIn s) := by
  rw [step, if_neg (by simp [hs]), h]

/-- A step that answers a next state runs a complete command or takes in the bytes of an unfinished one. -/
theorem step_cases {s t : State} (h : step s = .next t) :
    halted s = false ∧
      ((∃ i rest, decode (stream s) = .ok (i, rest) ∧ exec i (withRest rest s) = .next t) ∨
        (decode (stream s) = .error .incomplete ∧ s.input ≠ [] ∧ t = takeIn s)) := by
  cases hh : halted s with
  | true => rw [step_of_halted hh] at h; cases h
  | false =>
    refine ⟨rfl, ?_⟩
    cases hd : decode (stream s) with
    | ok ir => exact .inl ⟨ir.1, ir.2, rfl, by rw [← h, step_of_command hh hd]⟩
    | error e =>
      rw [step_of_unfinished hh hd] at h
      split at h
      · cases h
      · rename_i hi
        cases h
        exact .inr ⟨rfl, hi, rfl⟩

end Sys2Proof.Machine
end

