-- ==== Sys2Proof/Tests/Slice0.lean ====
section
/-! SUPPORT. The model's own tests. Expected values come from spec/95_test_vectors.md (the section is named at each
group), from the formats of spec/30_encoding.md, or by hand from a rule; every test is one step on a small state. The
`witness_` theorems show, for each statement of Certificates/Slice0/Obligations.lean with hypotheses, a concrete state
and operands that meet them together. -/

namespace Sys2Proof.Tests

open Sys2Proof.Machine

/-! ## The test configuration CFG_T (95_test_vectors.md section 2) -/

def rgb (r g b : Byte) : Rgba := { r := r, g := g, b := b, a := 255 }

def paletteT : Vector Rgba 16 :=
  #v[rgb 0 0 0, rgb 0 0 215, rgb 215 0 0, rgb 215 0 215, rgb 0 215 0, rgb 0 215 215, rgb 215 215 0, rgb 215 215 215,
     rgb 0 0 0, rgb 0 0 255, rgb 255 0 0, rgb 255 0 255, rgb 0 255 0, rgb 0 255 255, rgb 255 255 0, rgb 255 255 255]

/-- The fixture glyphs of 'A' (offset 264), 'B' (272), 'H' (320) and 'I' (328); every other byte is 0. -/
def glyphsT : List Byte :=
  List.replicate 264 0 ++ [0x00, 0x3C, 0x42, 0x42, 0x7E, 0x42, 0x42, 0x00] ++
  [0x00, 0x7C, 0x42, 0x7C, 0x42, 0x42, 0x7C, 0x00] ++ List.replicate 40 0 ++
  [0x00, 0x42, 0x42, 0x7E, 0x42, 0x42, 0x42, 0x00] ++ [0x00, 0x3E, 0x08, 0x08, 0x08, 0x08, 0x3E, 0x00] ++
  List.replicate 432 0

def paramsT : Params where
  scale := 2
  colourTable := paletteT
  glyphRom := Vector.mk glyphsT.toArray (by
    simp only [glyphsT, List.size_toArray, List.length_append, List.length_replicate, List.length_cons, List.length_nil])
  clearPhase := 0
  charsetRow := 21
  charsetCol := 0

def cfgT : Config := Config.mk paramsT (by decide)

/-- A machine with the test configuration and given colours, nothing written and nothing sent. -/
def st (ink paper : Colour) : State :=
  { State.afterReset cfgT 0 [] [] 0 with ink := ink, paper := paper }

def next? : Host.Outcome State Fault Refusal → Option State
  | .next t => some t
  | _ => none

def isHalt : Host.Outcome State Fault Refusal → Bool
  | .fault .halted => true
  | _ => false

def isWait : Host.Outcome State Fault Refusal → Bool
  | .fault .waiting => true
  | _ => false

/-- A field of the next state of one command. -/
def after {α : Type} (i : Instr) (s : State) (f : State → α) : Option α := (next? (exec i s)).map f

/-! ## Well-formedness: an ill-formed term for each check, refused -/

theorem test_wf_pack_a : (Instr.pack 128 0).wf = false := by decide
theorem test_wf_pack_b : (Instr.pack 0 (-129)).wf = false := by decide
theorem test_wf_setglyph_row : (Instr.setglyph 128 0 0).wf = false := by decide
theorem test_wf_setglyph_col : (Instr.setglyph 0 128 0).wf = false := by decide
theorem test_wf_setglyph_off : (Instr.setglyph 0 0 65536).wf = false := by decide
theorem test_wf_randomize : (Instr.randomize 0 0 0 128).wf = false ∧ (Instr.randomize 0 0 128 0).wf = false ∧
    (Instr.randomize 0 (-129) 0 0).wf = false ∧ (Instr.randomize 128 0 0 0).wf = false := by decide
theorem test_wf_drawchar : (Instr.drawchar 200 0 65).wf = false ∧ (Instr.drawchar 0 200 65).wf = false := by decide
theorem test_wf_drawtext : (Instr.drawtext 128 0 []).wf = false ∧ (Instr.drawtext 0 128 []).wf = false := by decide
theorem test_wf_drawtext_len : (Instr.drawtext 0 0 (List.replicate 65536 65)).wf = false := by
  rw [Instr.wf, List.length_replicate]
  decide
theorem test_wf_render : (Instr.render 0 0 0 128).wf = false ∧ (Instr.render 0 0 128 0).wf = false ∧
    (Instr.render 0 (-129) 0 0).wf = false ∧ (Instr.render 128 0 0 0).wf = false := by decide
theorem test_wf_setink : (Instr.setink 128).wf = false := by decide
theorem test_wf_setpaper : (Instr.setpaper (-129)).wf = false := by decide
theorem test_wf_illegal : (Instr.illegal 0x0D).wf = false := by decide

theorem test_cfg_scale : Params.check { paramsT with scale := 0 } = some .scaleOutOfRange ∧
    Params.check { paramsT with scale := 65536 } = some .scaleOutOfRange := by decide
theorem test_cfg_black : Params.check { paramsT with colourTable := paletteT.set 8 (rgb 1 0 0) } =
    some .brightBlackDiffers := by decide
theorem test_cfg_phase : Params.check { paramsT with clearPhase := 2 } = some .clearPhaseOutOfRange := by decide
theorem test_cfg_charset : Params.check { paramsT with charsetRow := 24 } = some .charsetCellOutOfGrid ∧
    Params.check { paramsT with charsetCol := 32 } = some .charsetCellOutOfGrid := by decide

/-! ## Decoding: words written out from the formats (95_test_vectors.md section 3.1) -/

theorem test_decode_nop : decode [0b00000000] = .ok (.nop, []) := by decide
theorem test_decode_pack : decode [0x01, 0x09, 0xFD] = .ok (.pack 9 (-3), []) := by decide
theorem test_decode_unpack : decode [0x02, 0x79] = .ok (.unpack 0x79, []) := by decide
theorem test_decode_clear : decode [0b00000011] = .ok (.clear, []) := by decide
theorem test_decode_setglyph : decode [0x04, 0x00, 0x00, 0x08, 0x01] = .ok (.setglyph 0 0 264, []) := by decide
theorem test_decode_randomize : decode [0x05, 0x16, 0x1E, 0x05, 0x06] = .ok (.randomize 22 30 5 6, []) := by decide
theorem test_decode_drawchar : decode [0x06, 0x05, 0x0A, 0x41] = .ok (.drawchar 5 10 0x41, []) := by decide
theorem test_decode_drawtext : decode [0x07, 0x17, 0x1E, 0x04, 0x00, 0x48, 0x49, 0x41, 0x42, 0x00] =
    .ok (.drawtext 23 30 [0x48, 0x49, 0x41, 0x42], [0x00]) := by decide
theorem test_decode_drawcharset : decode [0b00001000] = .ok (.drawcharset, []) := by decide
theorem test_decode_render : decode [0x09, 0xFF, 0xFE, 0x02, 0x03] = .ok (.render (-1) (-2) 2 3, []) := by decide
theorem test_decode_update : decode [0b00001010] = .ok (.update, []) := by decide
theorem test_decode_setink : decode [0x0B, 0x0E] = .ok (.setink 14, []) := by decide
theorem test_decode_setpaper : decode [0x0C, 0xFD] = .ok (.setpaper (-3), []) := by decide
theorem test_decode_readreg : decode [0x0D, 0x06] = .ok (.readreg 6, []) := by decide
theorem test_decode_illegal : decode [0x0E, 0x0B, 0x05] = .ok (.illegal 0x0E, [0x0B, 0x05]) := by decide
theorem test_decode_unfinished : decode [0x07, 0x00, 0x00] = .error .incomplete := by decide
theorem test_decode_no_text : decode [0x07, 0x00, 0x00, 0x00, 0x00] = .ok (.drawtext 0 0 [], []) := by decide
/-- `07 00 00 02 03` begins a command of 775 bytes. -/
theorem test_length_775 : cmdLength [0x07, 0x00, 0x00, 0x02, 0x03] = some 775 := by decide
theorem test_table_word : decodeTableWord 40 0x0202FEFF09 = some (.render (-1) (-2) 2 2) := by decide
theorem test_table_illegal : decodeTableWord 8 0xFF = some (.illegal 0xFF) := by decide

/-! ## The codec (95_test_vectors.md section 3.2) -/

theorem test_pack_values : pack 1 7 = 0x39 ∧ pack 9 7 = 0x79 ∧ pack 7 8 = 0x47 ∧ pack (-5) 20 = 0x78 ∧
    pack 16 (-1) = 0x47 ∧ pack 0 99 = 0x78 := by decide
theorem test_pack : after (.pack 2 14) (st 0 0) (fun t => (t.output, t.cmdpos)) =
    some ([.response 0x72], 3) := by decide
theorem test_unpack : after (.unpack 0xC5) (st 0 0) (fun t => (t.output, t.cmdpos)) =
    some ([.response 0x0D, .response 0x08], 2) := by decide

/-! ## Display memory (section 3.3) -/

theorem test_clear_attr : after .clear (st 15 0) (memRead .attr 5) = some 0x47 := by
  decide +kernel
theorem test_clear_pix : after .clear (st 1 7) (fun t => (memRead .pix 31 t, memRead .pix 32 t)) =
    some (0x55, 0xAA) := by decide +kernel
theorem test_setglyph : after (.setglyph 0 0 264) (st 2 6)
    (fun t => (memRead .attr 0 t, memRead .pix 32 t, memRead .pix 128 t, t.cmdpos)) =
    some (0x32, 0x3C, 0x7E, 5) := by decide
/-- `SETGLYPH 2, 0, 260` straddles two glyphs; `SETGLYPH 1, 0, 761` is a no-op. -/
theorem test_setglyph_offsets :
    after (.setglyph 2 0 260) (st 2 6) (fun t => (memRead .attr 64 t, memRead .pix 672 t, memRead .pix 704 t)) =
      some (0x32, 0x3C, 0x42) ∧
    after (.setglyph 1 0 761) (st 2 6) (fun t => (t.attr, t.pix)) = some ([], []) := by decide
/-- Every answer C5 (program P5): 36 draws, the four cells and nothing else. -/
theorem test_randomize : after (.randomize 22 30 5 5) { st 1 7 with answers := List.replicate 36 0xC5 }
    (fun t => (t.draws, t.attr, memRead .pix 5662 t, memRead .pix 6143 t, t.pix.length)) =
    some (36, [(734, 0xC5), (735, 0xC5), (766, 0xC5), (767, 0xC5)], 0xC5, 0xC5, 32) := by decide
theorem test_randomize_empty : after (.randomize (-128) (-128) 127 127) (st 1 7) (fun t => (t.draws, t.attr)) =
    some (0, []) := by decide

/-! ## Drawing (section 3.4) -/

theorem test_drawchar : after (.drawchar 5 10 0x41) (st 2 14)
    (fun t => (memRead .attr 170 t, memRead .pix 1322 t, memRead .pix 1418 t)) = some (0x72, 0x3C, 0x7E) := by decide
theorem test_drawchar_noop : after (.drawchar 0 0 0x1F) (st 2 6) State.attr = some [] ∧
    after (.drawchar 0 1 0x80) (st 2 6) State.attr = some [] ∧
    after (.drawchar 0 (-1) 0x41) (st 2 6) State.attr = some [] ∧
    after (.drawchar 0 2 0x7F) (st 2 6) State.attr = some [(2, 0x32)] := by decide
theorem test_drawtext_end : after (.drawtext 23 30 [0x48, 0x49, 0x41, 0x42]) (st 2 6)
    (fun t => (t.attr, memRead .pix 5950 t, memRead .pix 5951 t, t.cmdpos)) =
    some ([(766, 0x32), (767, 0x32)], 0x42, 0x3E, 9) := by decide
/-- `DRAWTEXT -1, 31, "HI"` and `DRAWTEXT 0, 40, "HI"`. -/
theorem test_drawtext_outside :
    after (.drawtext (-1) 31 [0x48, 0x49]) (st 2 6) (fun t => (t.attr, memRead .pix 32 t)) =
      some ([(0, 0x32)], 0x3E) ∧
    after (.drawtext 0 40 [0x48, 0x49]) (st 2 6) State.attr = some [(32, 0x32)] := by decide
/-- From the cell (23, 30) the first two of the 96 codes are drawn and the others are dropped. -/
theorem test_drawcharset : after .drawcharset
    { st 2 6 with cfg := Config.mk { paramsT with charsetRow := 23, charsetCol := 30 } (by decide) }
    (fun t => (t.attr, t.pix.length, memRead .pix 6142 t, t.cmdpos)) =
    some ([(766, 0x32), (767, 0x32)], 16, 0x00, 1) := by decide

/-! ## Compositor (section 3.5) -/

/-- A cell (5, 10) with attribute 72 and the pixel byte 3C on its line 1; only these are read. -/
def cellState : State :=
  { st 0 0 with attr := [(170, 0x72)], pix := (List.range 8).map fun i => (1290 + 32 * i, if i = 1 then 0x3C else 0) }

def presentOf : Event → Nat × Nat × Nat × Nat × Nat
  | .present ox oy w h buf => (ox, oy, w, h, buf.length)
  | .response _ => (0, 0, 0, 0, 0)

def bufOf : Event → List Byte
  | .present _ _ _ _ buf => buf
  | .response _ => []

theorem test_render_geometry : after (.render 5 10 1 1) cellState (fun t => t.output.map presentOf) =
    some [(160, 80, 16, 16, 1024)] := by decide +kernel
theorem test_render_pixels : after (.render 5 10 1 1) cellState
    (fun t => t.output.flatMap fun e => ((bufOf e).drop 128).take 24) =
    some [0xFF, 0xFF, 0x00, 0xFF, 0xFF, 0xFF, 0x00, 0xFF, 0xFF, 0xFF, 0x00, 0xFF, 0xFF, 0xFF, 0x00, 0xFF,
      0xFF, 0x00, 0x00, 0xFF, 0xFF, 0x00, 0x00, 0xFF] := by decide
theorem test_render_clip : clipRegion 23 31 4 4 = some { r0 := 23, c0 := 31, r1 := 24, c1 := 32 } ∧
    clipRegion 10 (-5) 2 10 = some { r0 := 10, c0 := 0, r1 := 12, c1 := 5 } ∧
    clipRegion (-1) (-1) 2 2 = some { r0 := 0, c0 := 0, r1 := 1, c1 := 1 } ∧
    clipRegion 0 0 0 5 = none ∧ clipRegion 24 0 1 1 = none ∧ clipRegion 127 127 127 127 = none := by decide
theorem test_update : after .update (st 0 0) (fun t => (t.output.length, t.cmdpos)) = some (1, 1) := by decide

/-! ## Control, faults and the command stream (sections 3.6 and 3.7) -/

theorem test_nop : after .nop { st 0 0 with cmdpos := 7 } State.cmdpos = some 8 := by decide
/-- CMDPOS wraps from 2^32 − 1 to 0 (R18). -/
theorem test_nop_wraps : after .nop { st 0 0 with cmdpos := 0xFFFFFFFF } State.cmdpos = some 0 := by decide
theorem test_setink : after (.setink 99) (st 0 3) (fun t => (t.ink, t.paper)) = some (15, 3) ∧
    after (.setink (-3)) (st 5 3) State.ink = some 0 := by decide
theorem test_setpaper : after (.setpaper 7) (st 5 0) (fun t => (t.ink, t.paper)) = some (5, 7) ∧
    after (.setpaper (-128)) (st 5 3) State.paper = some 0 := by decide
theorem test_readreg : after (.readreg 2) (st 0 0) State.output = some [.response 0x00, .response 0x01] ∧
    after (.readreg 3) (st 0 0) State.output = some [.response 0xC0, .response 0x00] ∧
    after (.readreg 6) (st 0 0) State.output = some [.response 0x02, .response 0x00] := by decide
theorem test_readreg_reserved : after (.readreg 9) { st 0 0 with cmdpos := 4 }
    (fun t => (statusRead t, t.output)) =
    some ({ status := 0x21, faultInfo := 0x09, faultPos := 4, cmdpos := 4 }, []) := by decide
theorem test_illegal : after (.illegal 0xFF) { st 0 0 with cmdpos := 5 } statusRead =
    some { status := 0x11, faultInfo := 0xFF, faultPos := 5, cmdpos := 5 } := by decide
theorem test_status_fields : statusFault 0x21 = true ∧ statusCause 0x21 = 2 ∧ statusCause 0x11 = 1 := by decide
/-- `07 00 00`: WAITING with PENDING = 07 00 00, CMDPOS = 0; then no step. -/
theorem test_pending : (next? (step (hostSend [0x07, 0x00, 0x00] (st 0 0)))).map
    (fun t => (t.pending, t.input, t.cmdpos, runState t, isWait (step t))) =
    some ([0x07, 0x00, 0x00], [], 0, .waiting, true) := by decide
/-- `0E 0B 05`: the fault at CMDPOS 0, and the bytes after it are not consumed. -/
theorem test_halts : (next? (step (hostSend [0x0E, 0x0B, 0x05] (st 4 0)))).map
    (fun t => (t.status, t.ink, t.input, isHalt (step t))) = some (0x11, 4, [0x0B, 0x05], true) := by decide
theorem test_reset_clears : statusRead (resetBlock { st 0 0 with status := 0x11, faultInfo := 0x0E, cmdpos := 2, pending := [7] }) =
    { status := 0, faultInfo := 0, faultPos := 0, cmdpos := 0 } := by decide

/-! ## The assembler (R49, R50 and section 3.1) -/

theorem test_asm_render : assembleLine "RENDER -1, -1, 2, 2".toList = some [.render (-1) (-1) 2 2] := by decide
theorem test_asm_drawchar : assembleLine "DRAWCHAR 5, 10, 'A' ; comment".toList = some [.drawchar 5 10 0x41] := by decide
theorem test_asm_drawtext : assembleLine "DRAWTEXT 23, 30, \"HIAB\"".toList =
    some [.drawtext 23 30 [0x48, 0x49, 0x41, 0x42]] := by decide
theorem test_asm_cls : assemble ["CLS 1, 7".toList] = some [0x0B, 0x01, 0x0C, 0x07, 0x03] := by decide
theorem test_asm_hex : assemble ["UNPACK 0x79".toList, "RENDERALL".toList] =
    some [0x02, 0x79, 0x09, 0x00, 0x00, 0x18, 0x20] := by decide

/-! ## The first step after reset runs each row of the opcode table -/

/-- The step answers a next state. -/
def runs (nbits w : Nat) : Bool := (next? (step (State.reset.withFetchWord nbits w))).isSome

theorem test_first_step : (runs 8 0x00 && runs 24 0xFD0901 && runs 16 0x7902 && runs 8 0x03 && runs 40 0x0108000004 &&
    runs 40 0x05051E1605 && runs 32 0x410A0506 && runs 40 0x00001E1707 && runs 8 0x08 && runs 40 0x0202FFFF09 &&
    runs 8 0x0A && runs 16 0x0E0B && runs 16 0xFD0C && runs 16 0x060D && runs 8 0x0E) = true := by decide

/-! ## Witnesses: the hypotheses of the statements are met -/

/-- A running machine with NOP at the head of its stream, spread over PENDING and the host's bytes. -/
def running : State := hostSend [0x00, 0x0B, 0x05] (st 3 4)
/-- A machine that waits for the rest of a DRAWCHAR. -/
def waiting : State := { st 3 4 with pending := [0x06], input := [0x00] }
/-- A machine halted by an illegal opcode. -/
def haltedT : State := { st 3 4 with status := 0x11, faultInfo := 0xFF }

theorem witness_DecodeOfEncodeIsTheCommand : (Instr.pack (-128) 127).wf = true ∧ (Instr.setglyph 0 0 65535).wf = true ∧
    (Instr.drawtext 0 0 [1]).wf = true ∧ (Instr.illegal 0x0E).wf = true ∧ (Instr.illegal 0xFF).wf = true := by decide
theorem witness_EncodeOfDecodeIsTheBytes : decode [0x01, 0x80, 0x7F, 0x03] = .ok (.pack (-128) 127, [0x03]) := by decide
theorem witness_CommandLengthFromFirstBytes : 0x0E ≤ (0x0E : Byte).toNat ∧ (0x0A : Byte).toNat ∈ [0x00, 0x03, 0x08, 0x0A] ∧
    (0x0D : Byte).toNat ∈ [0x02, 0x0B, 0x0C, 0x0D] ∧ (0x01 : Byte).toNat = 0x01 ∧ (0x06 : Byte).toNat = 0x06 ∧
    (0x09 : Byte).toNat ∈ [0x04, 0x05, 0x09] ∧ ((0x07 : Byte).toNat = 0x07 ∧ [(0 : Byte), 0, 2].length < 4) := by decide
theorem witness_DecoderWaitsForTheWholeCommand : decode [0x02, 0x79, 0x00] = .ok (.unpack 0x79, [0x00]) ∧
    decode [0x02] = .error .incomplete ∧ cmdLength [0x02] = some 2 := by decide
theorem witness_PackAndUnpackAgree : (7 : Nat) < 8 ∧ ¬(7 < (1#4).toNat ↔ 7 < (15#4).toNat) := by decide
theorem witness_PlaneReadAfterWrite : (Space.pix, 0) ≠ (Space.attr, 0) := by decide
theorem witness_PixelPlaneIsRasterOrder : (255 : Nat) < 256 ∧ (191 : Nat) < 192 ∧ (6143 : Nat) < 6144 ∧ (767 : Nat) < 768 := by
  decide
theorem witness_ClippedRegionIsTheOverlap : clipRegion (-1) 31 2 9 = some { r0 := 0, c0 := 31, r1 := 1, c1 := 32 } ∧
    ((0 : Int) < 1 ∨ (5 : Int) < 1) := by decide
theorem witness_ClearForgetsThePlanes : (st 0 0).cfg = cellState.cfg ∧ (st 0 0).ink = cellState.ink ∧
    (st 0 0).paper = cellState.paper ∧ (st 0 0).attr ≠ cellState.attr := ⟨rfl, rfl, rfl, by decide⟩
theorem witness_SetglyphWritesOneCellOrNothing : inGrid 23 31 = true ∧ 760 ≤ 760 ∧ inGrid 24 0 = false := by decide
theorem witness_DrawcharDrawsOneGlyphOrNothing : inGrid 0 0 = true ∧ (0x20 ≤ (0x20#8).toNat ∧ (0x20#8).toNat ≤ 0x7F) ∧
    ¬(0x20 ≤ (0x80#8).toNat ∧ (0x80#8).toNat ≤ 0x7F) := by decide
theorem witness_DrawtextIsDrawcharsInTurn : [(0x48 : Byte), 0x49].length = (2 : Byte).toNat + 256 * (0 : Byte).toNat ∧
    (24 : Int) ≤ 24 ∧ (-1 : Int) < 24 ∧ (23 : Int) < 24 := by decide
theorem witness_DrawtextDrawsEachCodeInItsCell : textCell (-1) 31 1 = (0, 0) ∧ inGrid 0 0 = true ∧
    textCell 0 40 1 = (1, 0) ∧ textCell 23 30 1 = (23, 31) ∧ textCell 23 30 2 = (24, 0) := by decide
theorem witness_DrawtextTruncatesAtTheLastCell : (23 : Nat) < 24 ∧ (30 : Nat) < 32 ∧ 32 * 23 + 30 + 1 < 768 := by decide
theorem witness_DrawcharsetDrawsThe96Glyphs : 95 < 96 ∧ 32 * cfgT.charsetRow + cfgT.charsetCol + 95 < 768 := by decide
theorem witness_inRegion : inRegion 22 30 5 5 23 31 ∧ ¬inRegion 22 30 0 5 22 30 := by
  simp [inRegion]
theorem witness_RandomizeFillsOnlyItsRegion : regionStores 22 30 5 5 .attr 767 :=
  ⟨23, 31, by simp [inRegion], by decide⟩
theorem witness_LogicalColourSelectsInkOrPaper : (memRead .pix 1322 cellState).getLsbD (7 - 82 % 8) = true ∧
    (memRead .pix 1322 cellState).getLsbD (7 - 80 % 8) = false ∧ 82 < 256 ∧ 41 < 192 ∧
    32 * 41 + 82 / 8 = 1322 := by decide
theorem witness_RenderPresentsTheClippedRegion : (∃ r c, inRegion 23 31 4 4 r c) ∧ ¬∃ r c, inRegion 24 0 1 1 r c := by
  refine ⟨⟨23, 31, by simp [inRegion]⟩, ?_⟩
  rintro ⟨r, c, h⟩
  simp only [inRegion, rows] at h
  omega
/-- The same cell with bit 7 set in its attribute byte and other colour registers. -/
theorem witness_RenderSeesOnlyItsCells :
    cellState.cfg.scale = { cellState with ink := 9, attr := [(170, 0xF2)] }.cfg.scale ∧
    memRead .attr 170 cellState &&& 0x7F = memRead .attr 170 { cellState with ink := 9, attr := [(170, 0xF2)] } &&& 0x7F ∧
    memRead .attr 170 cellState ≠ memRead .attr 170 { cellState with ink := 9, attr := [(170, 0xF2)] } := by decide
theorem witness_ReadregAnswersTheConstantOrFaults : (6#8).toNat ≤ 6 ∧ 7 ≤ (7#8).toNat := by decide
theorem witness_IllegalOpcodeFaults : 0x0E ≤ (0x0E#8).toNat ∧ 0x0E ≤ (0xFF#8).toNat := by decide
theorem witness_StepRunsTheDecodedCommand : halted running = false ∧
    decode (running.pending ++ running.input) = .ok (.nop, [0x0B, 0x05]) := by decide
theorem witness_StepRunsTheEncodedCommand : halted { waiting with input := [0x00, 0x01, 0x41, 0x08] } = false ∧
    (Instr.drawchar 0 1 0x41).wf = true ∧
    [0x06] ++ [0x00, 0x01, 0x41, 0x08] = encode (.drawchar 0 1 0x41) ++ [0x08] := by decide
theorem witness_UnfinishedCommandWaits : halted waiting = false ∧
    decode (waiting.pending ++ waiting.input) = .error .incomplete ∧ waiting.input ≠ [] ∧
    decode ((st 3 4).pending ++ (st 3 4).input) = .error .incomplete ∧ (st 3 4).input = [] := by decide
theorem witness_RunningAlwaysExecutes : runState running = .running ∧ runState waiting = .waiting ∧
    runState haltedT = .halted := by decide
theorem witness_HaltedBlockTakesNoBytes : halted haltedT = true := by decide
theorem witness_OnlyTwoConditionsFault : halted (hostSend [0x0D, 0x07] (st 3 4)) = false ∧
    ((next? (step (hostSend [0x0D, 0x07] (st 3 4)))).map halted) = some true ∧
    ((next? (step (hostSend [0x0E] (st 3 4)))).map halted) = some true ∧
    ((next? (step running)).map halted) = some false := by decide
theorem witness_FaultRecordChangesOnlyByAFault : ((next? (step running)).map halted) = some false := by decide
theorem witness_CmdposCountsConsumedBytes : ((next? (step running)).map fun t => (halted t, t.cmdpos)) = some (false, 1) ∧
    ((next? (step (hostSend [0x0E] (st 3 4)))).map fun t => (halted t, t.cmdpos)) = some (true, 0) ∧
    decode (waiting.pending ++ waiting.input) = .error .incomplete ∧ (next? (step waiting)).isSome = true := by decide
theorem witness_OnlySettersWriteTheColourRegisters : after .nop (st 3 4) State.ink = some 3 ∧
    after (.setpaper 9) (st 3 4) State.ink = some 3 ∧ after (.setink 9) (st 3 4) State.paper = some 4 := by decide
theorem witness_OnlyDrawingCommandsWriteThePlanes : after (.drawchar 0 0 0x41) (st 3 4) State.attr ≠
    some (st 3 4).attr := by decide
theorem witness_ConfigurationNeverChanges : ((next? (step running)).map fun t => t.cfg.scale) = some 2 := by decide
theorem witness_EachCommandEmitsItsOwnEvents : after (.readreg 6) (st 3 4) (fun t => t.output.length) = some 2 ∧
    after (.readreg 7) (st 3 4) (fun t => t.output.length) = some 0 := by decide
theorem witness_ChunkingDoesNotMatter : runState running = .running ∧ (next? (step running)).isSome = true ∧
    runState waiting = .waiting ∧ (next? (step waiting)).isSome = true ∧
    runState (hostSend [0x01, 0x41] waiting) = .running ∧
    [0x00] ++ [0x0B, 0x05] = running.pending ++ running.input := by decide
theorem witness_FirstCommandAfterReset : (Instr.setink 5).wf = true := by decide
theorem witness_IllFormedConfigurationIsRefused : 1 ≤ paramsT.scale ∧ paramsT.scale ≤ 65535 ∧
    paramsT.colourTable[8] = paramsT.colourTable[0] ∧ paramsT.clearPhase ≤ 1 ∧ paramsT.charsetRow ≤ 23 ∧
    paramsT.charsetCol ≤ 31 ∧ ¬(1 ≤ { paramsT with scale := 0 }.scale) := by decide
theorem witness_HostActionsKeepTheInvariant : (st 3 4).Inv :=
  ⟨by decide, by decide, .inl ⟨rfl, rfl, rfl⟩, by decide, by decide⟩
theorem witness_EveryStepKeepsTheInvariant : (st 3 4).Inv ∧ running.Inv ∧ (next? (step running)).isSome = true := by
  refine ⟨⟨by decide, by decide, .inl ⟨rfl, rfl, rfl⟩, by decide, by decide⟩,
    ⟨by decide, by decide, .inl ⟨rfl, rfl, rfl⟩, by decide, by decide⟩, by decide⟩

end Sys2Proof.Tests
end

section
/-! The configuration is constant (R25). -/

namespace Sys2Proof.Machine

/-- No command writes the configuration, whether it faults or not (R25). -/
theorem exec_cfg {i : Instr} {s t : State} (h : exec i s = .next t) : t.cfg = s.cfg := by
  cases hf : faults i with
  | some cause =>
    obtain rfl : raiseFault cause.1 cause.2 s = t := by simpa [exec_faults s hf] using h
    exact raiseFault_cfg s cause.1 cause.2
  | none =>
    obtain ⟨u, hu, effect⟩ := exec_effect s hf
    obtain rfl : u = t := by simpa [hu] using h
    exact effect.cfg

/-- A step writes no configuration: it runs a command, or it moves sent bytes to PENDING (R25). -/
theorem step_cfg {s t : State} (h : step s = .next t) : t.cfg = s.cfg := by
  obtain ⟨-, ⟨i, rest, -, hexec⟩ | ⟨-, -, rfl⟩⟩ := step_cases h
  · calc t.cfg = (withRest rest s).cfg := exec_cfg hexec
      _ = s.cfg := withRest_cfg s rest
  · exact takeIn_cfg s

/-- Settles O44: every step keeps the configuration (`step_cfg`), and reset carries it over. -/
theorem configurationNeverChanges : Obligations.ConfigurationNeverChanges :=
  ⟨fun _ _ => step_cfg, resetBlock_cfg⟩

end Sys2Proof.Machine
end

section
/-! When a clipped region is empty, and its corner (R34). -/

namespace Sys2Proof.Machine

/-- EMPTY in R34's words: the overlap has no row, or it has no column. -/
theorem clipRegion_eq_none_iff (row col height width : Int) : clipRegion row col height width = none ↔
    min (row + height) 24 ≤ max row 0 ∨ min (col + width) 32 ≤ max col 0 := by
  simp only [clipRegion, ite_eq_left_iff, reduceCtorEq, imp_false, not_not, Nat.cast_ofNat]

/-- The top left cell of a clipped region was requested: a clipped region is never without cells. -/
theorem clipRegion_some_corner {row col height width : Int} {g : Region}
    (h : clipRegion row col height width = some g) : inRegion row col height width g.r0 g.c0 := by
  obtain ⟨-, -, -, -, hrows, -, hcols, -⟩ := clipRegion_some h
  exact (clipRegion_some_mem h g.r0 g.c0).1 ⟨le_rfl, hrows, le_rfl, hcols⟩

/-- EMPTY says that no cell of the grid was requested. -/
theorem clipRegion_eq_none_iff_no_cell (row col height width : Int) :
    clipRegion row col height width = none ↔ ¬∃ r c, inRegion row col height width r c := by
  constructor
  · rintro h ⟨r, c, hrc⟩
    exact clipRegion_none h r c hrc
  · intro hno
    cases h : clipRegion row col height width with
    | none => rfl
    | some g => exact absurd ⟨g.r0, g.c0, clipRegion_some_corner h⟩ hno

/-- A request without a row or without a column is EMPTY (R34, derived): its overlap has none either. -/
theorem clipRegion_eq_none_of_lt_one {row col height width : Int} (h : height < 1 ∨ width < 1) :
    clipRegion row col height width = none := by
  rw [clipRegion_eq_none_iff]
  rcases h with hheight | hwidth
  · left; omega
  · right; omega

/-- Settles O13: the two readings of EMPTY, and what a clipped region that is not EMPTY holds. -/
theorem clippedRegionIsTheOverlap : Obligations.ClippedRegionIsTheOverlap := by
  intro row col height width
  refine ⟨clipRegion_eq_none_iff row col height width, clipRegion_eq_none_iff_no_cell row col height width,
    clipRegion_eq_none_of_lt_one, fun g h => ?_⟩
  obtain ⟨hr0, hr1, hc0, hc1, -⟩ := clipRegion_some h
  exact ⟨hr0, hr1, hc0, hc1, clipRegion_some_mem h⟩

end Sys2Proof.Machine
end

section
/-! The attribute codec: PACK, UNPACK and their bit fields as arithmetic (R51 to R55). -/

namespace Sys2Proof.Machine

/-! ## The fields of an attribute byte -/

/-- The three fields of a packed byte do not overlap: the bits joined are the fields added (R52). -/
theorem attrFields_toNat {bright paper ink : Nat} (hb : bright < 2) (hp : paper < 8) (hi : ink < 8) :
    (BitVec.ofNat 8 (bright <<< 6 ||| paper <<< 3 ||| ink)).toNat = 64 * bright + 8 * paper + ink := by
  have low : paper <<< 3 ||| ink = 8 * paper + ink := by
    rw [← Nat.shiftLeft_add_eq_or_of_lt hi, Nat.shiftLeft_eq]; omega
  have low_lt : 8 * paper + ink < 2 ^ 6 := by omega
  rw [Nat.or_assoc, low, ← Nat.shiftLeft_add_eq_or_of_lt low_lt, Nat.shiftLeft_eq, BitVec.toNat_ofNat]
  omega

/-- The base of a colour index, the index within its half of brightness, fits three bits. -/
theorem colourBase_lt (c : Colour) : (if 7 < c.toNat then c.toNat - 8 else c.toNat) < 8 := by
  have := c.isLt
  split <;> omega

/-- Each index that `unpack` answers is a base below 8 in the half that bit 6 names, so four bits hold it (R53). -/
theorem unpackedIndex_toNat {base : Nat} (x : Byte) (h : base < 8) :
    (BitVec.ofNat 4 (base + 8 * if x.getLsbD 6 then 1 else 0)).toNat = base + 8 * (x.toNat / 64 % 2) := by
  have bit6 : (if x.getLsbD 6 then 1 else 0) = x.toNat / 64 % 2 := by
    rw [← BitVec.testBit_toNat, Nat.testBit_eq_decide_div_mod_eq]
    simp only [decide_eq_true_eq]
    split <;> omega
  rw [bit6, BitVec.toNat_ofNat]
  omega

/-- The ink index: bits 2..0, and 8 more when bit 6 is set (R53). -/
theorem unpack_ink_toNat (x : Byte) : (unpack x).1.toNat = x.toNat % 8 + 8 * (x.toNat / 64 % 2) := by
  have field : (x.extractLsb' 0 3).toNat = x.toNat % 8 := by simp
  rw [unpack, field]
  exact unpackedIndex_toNat x (by omega)

/-- The paper index: bits 5..3, and 8 more when bit 6 is set (R53). -/
theorem unpack_paper_toNat (x : Byte) : (unpack x).2.toNat = x.toNat / 8 % 8 + 8 * (x.toNat / 64 % 2) := by
  have field : (x.extractLsb' 3 3).toNat = x.toNat / 8 % 8 := by
    simp [Nat.shiftRight_eq_div_pow]
  rw [unpack, field]
  exact unpackedIndex_toNat x (by omega)

/-- R51 by cases, from the clamp's closed form. -/
theorem clamp16_toNat_cases (v : Int) : ((clamp16 v).toNat : Int) = if v < 0 then 0 else if 15 < v then 15 else v := by
  rw [clamp16_toNat]
  split
  · omega
  · split <;> omega

/-- Settles O7: the clamp by its cases, and the fields of the packed byte as a sum (`attrFields_toNat`). -/
theorem packEncodesTheClampedColours : Obligations.PackEncodesTheClampedColours := by
  refine ⟨clamp16_toNat_cases, fun a b => ?_⟩
  exact attrFields_toNat (by split <;> omega) (colourBase_lt (clamp16 b)) (colourBase_lt (clamp16 a))

/-! ## The commands from their bytes -/

theorem decode_pack (x y : Byte) (rest : List Byte) :
    decode (0x01 :: x :: y :: rest) = .ok (.pack x.toInt y.toInt, rest) := rfl

theorem decode_unpack (x : Byte) (rest : List Byte) : decode (0x02 :: x :: rest) = .ok (.unpack x, rest) := rfl

/-- What PACK does to the state, in full (R54). -/
theorem exec_pack (a b : Int) (s : State) : exec (.pack a b) s =
    .next { s with cmdpos := s.cmdpos + 3, output := s.output ++ [.response (pack a b)] } := rfl

/-- What UNPACK does to the state, in full: the ink index goes out first (R55). -/
theorem exec_unpack (x : Byte) (s : State) : exec (.unpack x) s =
    .next { s with
      cmdpos := s.cmdpos + 2
      output := s.output ++ [.response ((unpack x).1.setWidth 8), .response ((unpack x).2.setWidth 8)] } := by
  have run : exec (.unpack x) s = .next (advance 2
      (emit (.response ((unpack x).2.setWidth 8)) (emit (.response ((unpack x).1.setWidth 8)) s))) := rfl
  rw [run, emit_emit]
  rfl

/-- Settles O9: PACK's bytes and its effect. -/
theorem packAnswersOneByte : Obligations.PackAnswersOneByte :=
  ⟨decode_pack, exec_pack⟩

/-- Settles O10: UNPACK's bytes, and its two answers as the arithmetic of `unpack_ink_toNat` and
`unpack_paper_toNat`. -/
theorem unpackAnswersInkThenPaper : Obligations.UnpackAnswersInkThenPaper := by
  refine ⟨decode_unpack, fun x s => ⟨(unpack x).1.setWidth 8, (unpack x).2.setWidth 8, ?_⟩⟩
  have ink : ((unpack x).1.setWidth 8 : Byte).toNat = (unpack x).1.toNat := BitVec.toNat_setWidth_of_le (by decide)
  have paper : ((unpack x).2.setWidth 8 : Byte).toNat = (unpack x).2.toNat := BitVec.toNat_setWidth_of_le (by decide)
  exact ⟨ink.trans (unpack_ink_toNat x), paper.trans (unpack_paper_toNat x), ink.symm, paper.symm, exec_unpack x s⟩

end Sys2Proof.Machine
end

section
/-! The commands CLEAR and SETGLYPH: their bytes, the bytes they write, and their frame (R56 to R59). -/

namespace Sys2Proof.Machine

/-! ## A command that writes the planes -/

/-- After a drawing operation that changes the planes and nothing else, a command only moves CMDPOS (R18). -/
theorem advance_frame_of_planes {s u : State} (n : Nat) (h : u = { s with pix := u.pix, attr := u.attr }) :
    advance n u = { s with
      cmdpos := s.cmdpos + BitVec.ofNat 32 n, pix := (advance n u).pix, attr := (advance n u).attr } := by
  rw [h]
  rfl

theorem cellHolds_advance {r c : Nat} {attr : Byte} {line : Nat → Byte} {s : State} (n : Nat)
    (h : cellHolds r c attr line s) : cellHolds r c attr line (advance n s) :=
  cellHolds_congr h fun _ _ _ => advance_memRead ..

/-! ## CLEAR -/

theorem decode_clear (rest : List Byte) : decode (0x03 :: rest) = .ok (.clear, rest) := rfl

theorem exec_clear (s : State) : exec .clear s = .next (advance 1 (clearPlanes s)) := rfl

theorem clearPlanes_frame (s : State) :
    clearPlanes s = { s with pix := (clearPlanes s).pix, attr := (clearPlanes s).attr } := by
  rw [clearPlanes_eq]

/-- Settles O14: the state after CLEAR is `clearPlanes` with CMDPOS moved on, so each byte reads as `clearPlanes_attr`
and `clearPlanes_pix` say. -/
theorem clearOverwritesBothPlanes : Obligations.ClearOverwritesBothPlanes := by
  refine ⟨decode_clear, fun s => ⟨_, exec_clear s, advance_frame_of_planes 1 (clearPlanes_frame s), fun a ha => ?_,
    fun a ha => ?_⟩⟩
  · calc memRead .attr a (advance 1 (clearPlanes s)) = memRead .attr a (clearPlanes s) := advance_memRead ..
      _ = currentAttr s := clearPlanes_attr s ha
  · calc memRead .pix a (advance 1 (clearPlanes s)) = memRead .pix a (clearPlanes s) := advance_memRead ..
      _ = clearPattern s.cfg a := clearPlanes_pix s ha

/-! ## SETGLYPH -/

theorem decode_setglyph (r c lo hi : Byte) (rest : List Byte) : decode (0x04 :: r :: c :: lo :: hi :: rest) =
    .ok (.setglyph r.toInt c.toInt (lo.toNat + 256 * hi.toNat), rest) := rfl

theorem exec_setglyph (row col : Int) (off : Nat) (s : State) :
    exec (.setglyph row col off) s = .next (advance 5 (setGlyph row col off s)) := rfl

/-- The two no-ops of setGlyph together: a cell outside the grid, or an offset without eight ROM bytes (R57). -/
theorem setGlyph_of_not_drawn {row col : Int} {off : Nat} (s : State) (h : ¬(inGrid row col = true ∧ off ≤ 760)) :
    setGlyph row col off s = s := by
  rcases not_and_or.1 h with outside | large
  · exact setGlyph_of_outside off s (Bool.eq_false_of_not_eq_true outside)
  · exact setGlyph_of_large_offset row col s (Nat.lt_of_not_le large)

/-- Settles O17: the state after SETGLYPH is `setGlyph` with CMDPOS moved on, so what `setGlyph` writes
(`setGlyph_cell`), keeps (`setGlyph_other`) and skips (`setGlyph_of_not_drawn`) is what the command does. -/
theorem setglyphWritesOneCellOrNothing : Obligations.SetglyphWritesOneCellOrNothing := by
  refine ⟨decode_setglyph, fun row col off s => ⟨_, exec_setglyph row col off s,
    advance_frame_of_planes 5 (setGlyph_frame row col off s), fun hcell hoff => ?_, fun sp a hkept => ?_,
    fun hno => ?_⟩⟩
  · exact cellHolds_advance 5 (setGlyph_cell s hcell hoff)
  · calc memRead sp a (advance 5 (setGlyph row col off s))
      _ = memRead sp a (setGlyph row col off s) := advance_memRead ..
      _ = memRead sp a s := setGlyph_other s fun hcell hoff hmem => hkept ⟨hcell, hoff, hmem⟩
  · rw [setGlyph_of_not_drawn s hno]
    rfl

end Sys2Proof.Machine
end

section
/-! The drawing commands DRAWCHAR, DRAWTEXT and DRAWCHARSET: their bytes, the glyphs they draw, and their frame
(R61 to R65). -/

namespace Sys2Proof.Machine

/-! ## DRAWCHAR -/

theorem decode_drawchar (r c k : Byte) (rest : List Byte) :
    decode (0x06 :: r :: c :: k :: rest) = .ok (.drawchar r.toInt c.toInt k, rest) := rfl

theorem exec_drawchar (row col : Int) (code : Byte) (s : State) :
    exec (.drawchar row col code) s = .next (advance 4 (drawChar row col code s)) := rfl

/-- The two no-ops of drawChar together: a cell outside the grid, or a code without a glyph (R61). -/
theorem drawChar_of_not_drawn {row col : Int} {code : Byte} (s : State)
    (h : ¬(inGrid row col = true ∧ printable code)) : drawChar row col code s = s := by
  by_cases hp : printable code
  · have outside : inGrid row col = false := Bool.eq_false_of_not_eq_true fun hg => h ⟨hg, hp⟩
    rw [drawChar_of_printable row col s hp, setGlyph_of_outside _ s outside]
  · exact drawChar_of_unprintable row col s hp

/-- Settles O19: the state after DRAWCHAR is `drawChar` with CMDPOS moved on, so what `drawChar` writes
(`drawChar_cell`), keeps (`drawChar_other`) and skips (`drawChar_of_not_drawn`) is what the command does. -/
theorem drawcharDrawsOneGlyphOrNothing : Obligations.DrawcharDrawsOneGlyphOrNothing := by
  refine ⟨decode_drawchar, fun row col code s => ⟨_, exec_drawchar row col code s,
    advance_frame_of_planes 4 (drawChar_frame row col code s), fun hcell hprint => ?_, fun sp a hkept => ?_,
    fun hno => ?_⟩⟩
  · exact cellHolds_advance 4 (drawChar_cell s hcell hprint)
  · calc memRead sp a (advance 4 (drawChar row col code s))
      _ = memRead sp a (drawChar row col code s) := advance_memRead ..
      _ = memRead sp a s := drawChar_other s fun hcell hprint hmem => hkept ⟨hcell, hprint, hmem⟩
  · rw [drawChar_of_not_drawn s hno]
    rfl

/-! ## DRAWTEXT -/

/-- The two length bytes say how many of the bytes after them are codes (R44, R46). -/
theorem decode_drawtext (r c lo hi : Byte) (codes rest : List Byte) (h : codes.length = lo.toNat + 256 * hi.toNat) :
    decode (0x07 :: r :: c :: lo :: hi :: (codes ++ rest)) = .ok (.drawtext r.toInt c.toInt codes, rest) := by
  have len : u16 lo hi = codes.length := h.symm
  have complete : u16 lo hi ≤ (codes ++ rest).length := by rw [len, List.length_append]; omega
  refine (if_pos complete).trans ?_
  rw [len, List.take_left, List.drop_left]
  rfl

theorem exec_drawtext (row col : Int) (codes : List Byte) (s : State) :
    exec (.drawtext row col codes) s = .next (advance (5 + codes.length) (drawText row col codes s)) := rfl

/-- CMDPOS counts modulo 2^32, so two advances are one by the sum (R18). -/
theorem advance_advance (m n : Nat) (s : State) : advance n (advance m s) = advance (m + n) s := by
  simp only [advance, BitVec.ofNat_add, BitVec.add_assoc]

/-- DRAWCHAR's next state, with CMDPOS set to one byte after the start instead: what a text has done once its first
code is drawn and counted. -/
theorem advance_drawChar_cmdpos (n : Nat) (row col : Int) (code : Byte) (s : State) :
    { advance n (drawChar row col code s) with cmdpos := s.cmdpos + 1 } = advance 1 (drawChar row col code s) := by
  rw [drawChar_frame]
  rfl

/-- The DRAWTEXT of a first code and others is the DRAWTEXT of the others, from the next cell, in the state with the
first code drawn and counted (R62, R64). -/
theorem exec_drawtext_cons {row : Int} (col : Int) (code : Byte) (codes : List Byte) (s : State) (h : row < 24) :
    exec (.drawtext row col (code :: codes)) s =
      exec (if 32 ≤ col + 1 then .drawtext (row + 1) 0 codes else .drawtext row (col + 1) codes)
        (advance 1 (drawChar row col code s)) := by
  have count : 5 + (code :: codes).length = 1 + (5 + codes.length) := by rw [List.length_cons]; omega
  rw [exec_drawtext, drawText_cons, if_neg (by omega), count, ← advance_advance]
  split <;> rw [exec_drawtext, drawText_advance]

/-- Settles O20: the bytes of DRAWTEXT, the two texts that draw nothing, and the loop of R62 one code at a time
(`exec_drawtext_cons`). -/
theorem drawtextIsDrawcharsInTurn : Obligations.DrawtextIsDrawcharsInTurn := by
  refine ⟨decode_drawtext, fun row col s => rfl, fun row col codes s hrow => ?_,
    fun row col code codes s hrow => ⟨_, exec_drawchar row col code s, ?_⟩⟩
  · rw [exec_drawtext, drawText_below col codes s hrow]
    rfl
  · rw [advance_drawChar_cmdpos]
    exact exec_drawtext_cons col code codes s hrow

/-! ## A text that starts in the grid, by linear cells `32*row + col` -/

/-- From a column of the grid on, the cells of a text are the linear cells in order (R62). -/
theorem textCell_eq_linear (row : Nat) {col : Nat} (k : Nat) (hcol : col < 32) :
    textCell row col k = ((((32 * row + col + k) / 32 : Nat) : Int), (((32 * row + col + k) % 32 : Nat) : Int)) := by
  simp only [textCell, columns]
  split <;> refine Prod.ext ?_ ?_ <;> simp only <;> omega

/-- Such a cell is in the grid until the last linear cell, 767. -/
theorem inGrid_textCell_iff (row : Nat) {col : Nat} (k : Nat) (hcol : col < 32) :
    inGrid (textCell row col k).1 (textCell row col k).2 = true ↔ 32 * row + col + k < 768 := by
  rw [textCell_eq_linear row k hcol, inGrid_iff]
  simp only
  omega

/-- `drawText_cell` by linear cells. -/
theorem drawText_linearCell (row : Nat) {col : Nat} {codes : List Byte} (s : State) {k : Nat} (hcol : col < 32)
    (hk : k < codes.length) (hp : printable codes[k]) (hin : 32 * row + col + k < 768) :
    cellHolds ((32 * row + col + k) / 32) ((32 * row + col + k) % 32) (currentAttr s)
      (fun i => glyphByte s.cfg (glyphOff codes[k].toNat + i)) (drawText row col codes s) := by
  have cell := drawText_cell s hk hp ((inGrid_textCell_iff row k hcol).2 hin)
  rw [textCell_eq_linear row k hcol] at cell
  exact cell

/-- `textStores` by linear cells. -/
theorem textStores_iff_linear (row : Nat) {col : Nat} (codes : List Byte) (sp : Space) (a : Nat) (hcol : col < 32) :
    textStores row col codes sp a ↔ ∃ k, ∃ h : k < codes.length, printable codes[k] ∧ 32 * row + col + k < 768 ∧
      (sp, a) ∈ cellBytes ((32 * row + col + k) / 32) ((32 * row + col + k) % 32) := by
  simp only [textStores, inGrid_textCell_iff row _ hcol]
  simp only [textCell_eq_linear row _ hcol, Int.toNat_natCast]

/-! ## DRAWCHARSET -/

theorem decode_drawcharset (rest : List Byte) : decode (0x08 :: rest) = .ok (.drawcharset, rest) := rfl

theorem exec_drawcharset (s : State) :
    exec .drawcharset s = .next (advance 1 (drawText s.cfg.charsetRow s.cfg.charsetCol charsetCodes s)) := rfl

theorem charsetCodes_length : charsetCodes.length = 96 := by
  rw [charsetCodes, List.length_map, List.length_range]

/-- The `k`-th code of the character set is that of glyph `k`. -/
theorem charsetCodes_toNat {k : Nat} (h : k < charsetCodes.length) : charsetCodes[k].toNat = 0x20 + k := by
  have hk := charsetCodes_length ▸ h
  simp only [charsetCodes, List.getElem_map, List.getElem_range, BitVec.toNat_ofNat]
  omega

theorem charsetCodes_printable {k : Nat} (h : k < charsetCodes.length) : printable charsetCodes[k] := by
  have hk := charsetCodes_length ▸ h
  rw [printable, charsetCodes_toNat h]
  omega

theorem charsetCodes_glyphOff {k : Nat} (h : k < charsetCodes.length) : glyphOff charsetCodes[k].toNat = 8 * k := by
  rw [glyphOff, charsetCodes_toNat h]
  omega

/-- Settles O23: DRAWCHARSET and the DRAWTEXT of `charsetCodes` end in the same `drawText` with CMDPOS moved on by
1 and by 101, and that text is read by linear cells (`drawText_linearCell`, `textStores_iff_linear`). -/
theorem drawcharsetDrawsThe96Glyphs : Obligations.DrawcharsetDrawsThe96Glyphs := by
  refine ⟨decode_drawcharset, fun s => ?_⟩
  obtain ⟨-, -, -, -, -, hmaxCol⟩ := s.cfg.bounds
  have hcol : s.cfg.charsetCol < 32 := by omega
  refine ⟨_, _, exec_drawcharset s, exec_drawtext _ _ charsetCodes s,
    advance_frame_of_planes 1 (drawText_frame _ _ charsetCodes s), fun k hk hin => ?_, fun sp a hkept => ?_⟩
  · have hk' : k < charsetCodes.length := charsetCodes_length ▸ hk
    have cell := drawText_linearCell s.cfg.charsetRow s hcol hk' (charsetCodes_printable hk') hin
    rw [charsetCodes_glyphOff hk'] at cell
    exact cellHolds_advance 1 cell
  · have notStored : ¬textStores s.cfg.charsetRow s.cfg.charsetCol charsetCodes sp a := by
      rw [textStores_iff_linear _ _ sp a hcol]
      rintro ⟨k, hk, -, hin, hmem⟩
      exact hkept ⟨k, charsetCodes_length ▸ hk, hin, hmem⟩
    calc memRead sp a (advance 1 (drawText s.cfg.charsetRow s.cfg.charsetCol charsetCodes s))
      _ = memRead sp a (drawText s.cfg.charsetRow s.cfg.charsetCol charsetCodes s) := advance_memRead ..
      _ = memRead sp a s := drawText_other s notStored

end Sys2Proof.Machine
end

section
/-! The compositor: the colour of a logical pixel, and the image that RENDER and UPDATE present (R66 to R71). -/

namespace Sys2Proof.Machine

/-! ## The colour of a logical pixel -/

/-- The pixel byte of screen line `y`: the pixel plane is in raster order (R30). -/
theorem pixAddr_of_line (y col : Nat) : pixAddr (y / 8) (y % 8) col = 32 * y + col := by
  simp only [pixAddr, columns]
  omega

theorem attrAddr_eq_linear (row col : Nat) : attrAddr row col = 32 * row + col := by
  rw [attrAddr, columns, Nat.mul_comm]

/-- A colour-table entry by the number of its index (R33). -/
theorem colourEntry_of_toNat (cfg : Config) {i : Colour} {n : Nat} (hi : i.toNat = n) (hn : n < 16) :
    colourEntry cfg i = cfg.colourTable[n] := by
  subst hi
  rfl

/-- R66 with both plane addresses in linear form. -/
theorem logicalColour_eq (x y : Nat) (s : State) : logicalColour x y s =
    if (memRead .pix (32 * y + x / 8) s).getLsbD (7 - x % 8) then
      colourEntry s.cfg (unpack (memRead .attr (32 * (y / 8) + x / 8) s)).1
    else colourEntry s.cfg (unpack (memRead .attr (32 * (y / 8) + x / 8) s)).2 := by
  rw [logicalColour, pixAddr_of_line, attrAddr_eq_linear]

/-- Settles O24: the bit picks the branch of `logicalColour_eq`, and the index in that branch is the arithmetic of
`unpack_ink_toNat` or `unpack_paper_toNat`. -/
theorem logicalColourSelectsInkOrPaper : Obligations.LogicalColourSelectsInkOrPaper := by
  intro x y s _ _ bit attr bright
  refine ⟨fun hset hink => ?_, fun hclear hpaper => ?_, by omega, by omega⟩
  · rw [logicalColour_eq, if_pos hset]
    exact colourEntry_of_toNat s.cfg (unpack_ink_toNat attr) hink
  · rw [logicalColour_eq, if_neg (Bool.eq_false_iff.1 hclear)]
    exact colourEntry_of_toNat s.cfg (unpack_paper_toNat attr) hpaper

/-! ## The image of a region -/

/-- The four bytes of physical pixel (px, py) are the components of the logical pixel it shows (R35, R68). -/
theorem renderImage_pixel (g : Region) (s : State) {px py : Nat} (hx : px < imageWidth g s.cfg.scale)
    (hy : py < imageHeight g s.cfg.scale) :
    let q := logicalColour (g.c0 * 8 + px / s.cfg.scale) (g.r0 * 8 + py / s.cfg.scale) s
    let k := 4 * (py * imageWidth g s.cfg.scale + px)
    (renderImage g s)[k]? = some q.r ∧ (renderImage g s)[k + 1]? = some q.g ∧
      (renderImage g s)[k + 2]? = some q.b ∧ (renderImage g s)[k + 3]? = some q.a :=
  ⟨renderImage_getElem? g s hx hy (k := 0) (by decide), renderImage_getElem? g s hx hy (k := 1) (by decide),
    renderImage_getElem? g s hx hy (k := 2) (by decide), renderImage_getElem? g s hx hy (k := 3) (by decide)⟩

/-! ## RENDER -/

theorem decode_render (r c h w : Byte) (rest : List Byte) : decode (0x09 :: r :: c :: h :: w :: rest) =
    .ok (.render r.toInt c.toInt h.toInt w.toInt, rest) := rfl

/-- RENDER appends the Present of the clipped region, if it has one, and moves CMDPOS on (R70). -/
theorem exec_render (row col height width : Int) (s : State) : exec (.render row col height width) s =
    .next { s with
      cmdpos := s.cmdpos + 5
      output := s.output ++ ((clipRegion row col height width).map fun g => presentEvent g s).toList } := by
  have run : exec (.render row col height width) s = .next (advance 5 (renderRegion row col height width s)) := rfl
  rw [run, renderRegion_frame, renderRegion_output]
  rfl

theorem exec_render_of_some {row col height width : Int} {g : Region} (s : State)
    (h : clipRegion row col height width = some g) : exec (.render row col height width) s =
    .next { s with cmdpos := s.cmdpos + 5, output := s.output ++ [presentEvent g s] } := by
  rw [exec_render, h]
  rfl

theorem exec_render_of_none {row col height width : Int} (s : State) (h : clipRegion row col height width = none) :
    exec (.render row col height width) s = .next { s with cmdpos := s.cmdpos + 5 } := by
  rw [exec_render, h, Option.map_none, Option.toList_none, List.append_nil]

/-- A request with a cell of the grid is not EMPTY (R34). -/
theorem clipRegion_some_of_cell {row col height width : Int} (h : ∃ r c, inRegion row col height width r c) :
    ∃ g, clipRegion row col height width = some g :=
  Option.ne_none_iff_exists'.1 fun hnone => (clipRegion_eq_none_iff_no_cell row col height width).1 hnone h

/-- The corner and the size of a clipped region as natural numbers (R34, R67). -/
theorem clipRegion_some_geometry {row col height width : Int} {g : Region}
    (h : clipRegion row col height width = some g) :
    (max row 0).toNat = g.r0 ∧ (max col 0).toNat = g.c0 ∧
      (min (row + height) 24 - max row 0).toNat = g.r1 - g.r0 ∧
      (min (col + width) 32 - max col 0).toNat = g.c1 - g.c0 := by
  obtain ⟨hr0, hr1, hc0, hc1, -⟩ := clipRegion_some h
  omega

/-- Settles O25: a region with a cell is clipped to some `g`, whose Present (`exec_render_of_some`) has the geometry of
`clipRegion_some_geometry` and the bytes of `renderImage_pixel`; any other region is EMPTY. -/
theorem renderPresentsTheClippedRegion : Obligations.RenderPresentsTheClippedRegion := by
  refine ⟨decode_render, fun row col height width s => ⟨fun hcell => ?_, fun hnone => ?_⟩⟩
  · obtain ⟨g, hg⟩ := clipRegion_some_of_cell hcell
    obtain ⟨top, left, high, wide⟩ := clipRegion_some_geometry hg
    rw [top, left, high, wide]
    exact ⟨renderImage g s, exec_render_of_some s hg, renderImage_length g s, fun X Y => renderImage_pixel g s⟩
  · exact exec_render_of_none s ((clipRegion_eq_none_iff_no_cell row col height width).2 hnone)

/-! ## UPDATE -/

theorem decode_update (rest : List Byte) : decode (0x0A :: rest) = .ok (.update, rest) := rfl

theorem exec_update (s : State) : exec .update s =
    .next { s with cmdpos := s.cmdpos + 1, output := s.output ++ [presentEvent wholeScreen s] } := rfl

/-- The region of RENDER 0, 0, 24, 32 is the whole grid (R71, derived). -/
theorem clipRegion_wholeScreen : clipRegion 0 0 24 32 = some wholeScreen := by decide

/-- The whole screen's image is at the origin and has 256*SCALE by 192*SCALE physical pixels (R71). -/
theorem presentEvent_wholeScreen (s : State) : presentEvent wholeScreen s =
    .present 0 0 (256 * s.cfg.scale) (192 * s.cfg.scale) (renderImage wholeScreen s) := by
  simp [presentEvent, wholeScreen, imageWidth, imageHeight]

/-- On the whole screen, physical pixel (px, py) shows logical pixel (px div SCALE, py div SCALE) (R68, R71). -/
theorem wholeScreen_pixel (px py : Nat) (s : State) :
    logicalColour (wholeScreen.c0 * 8 + px / s.cfg.scale) (wholeScreen.r0 * 8 + py / s.cfg.scale) s =
      logicalColour (px / s.cfg.scale) (py / s.cfg.scale) s := by
  simp only [wholeScreen, Nat.zero_mul, Nat.zero_add]

/-- Settles O26: UPDATE and RENDER 0, 0, 24, 32 (`clipRegion_wholeScreen`) append the Present of the same region, whose
geometry is `presentEvent_wholeScreen` and whose bytes are those of `renderImage_pixel`. -/
theorem updatePresentsTheWholeScreen : Obligations.UpdatePresentsTheWholeScreen := by
  refine ⟨decode_update, fun s => ⟨renderImage wholeScreen s, ?_, ?_, renderImage_length wholeScreen s,
    fun X Y hX hY => ?_⟩⟩
  · rw [exec_update, presentEvent_wholeScreen]
  · rw [exec_render_of_some s clipRegion_wholeScreen, presentEvent_wholeScreen]
  · rw [← wholeScreen_pixel X Y s]
    exact renderImage_pixel wholeScreen s hX hY

end Sys2Proof.Machine
end

section
/-! The control commands NOP, SETINK, SETPAPER and READREG: their bytes and what they do to the state (R73 to R76). -/

namespace Sys2Proof.Machine

/-! ## NOP, SETINK and SETPAPER -/

theorem decode_nop (rest : List Byte) : decode (0x00 :: rest) = .ok (.nop, rest) := rfl

theorem exec_nop (s : State) : exec .nop s = .next { s with cmdpos := s.cmdpos + 1 } := rfl

/-- Settles O29: NOP's byte and its effect. -/
theorem nopOnlyAdvances : Obligations.NopOnlyAdvances :=
  ⟨decode_nop, exec_nop⟩

theorem decode_setink (x : Byte) (rest : List Byte) :
    decode (0x0B :: x :: rest) = .ok (.setink x.toInt, rest) := rfl

theorem exec_setink (v : Int) (s : State) :
    exec (.setink v) s = .next { s with ink := clamp16 v, cmdpos := s.cmdpos + 2 } := rfl

/-- Settles O30: the colour stored is `clamp16` of the operand, whose cases are `clamp16_toNat_cases`. -/
theorem setinkStoresTheClampedColour : Obligations.SetinkStoresTheClampedColour :=
  ⟨decode_setink, fun v s => ⟨clamp16 v, clamp16_toNat_cases v, exec_setink v s⟩⟩

theorem decode_setpaper (x : Byte) (rest : List Byte) :
    decode (0x0C :: x :: rest) = .ok (.setpaper x.toInt, rest) := rfl

theorem exec_setpaper (v : Int) (s : State) :
    exec (.setpaper v) s = .next { s with paper := clamp16 v, cmdpos := s.cmdpos + 2 } := rfl

/-- Settles O31: as O30, for PAPER. -/
theorem setpaperStoresTheClampedColour : Obligations.SetpaperStoresTheClampedColour :=
  ⟨decode_setpaper, fun v s => ⟨clamp16 v, clamp16_toNat_cases v, exec_setpaper v s⟩⟩

/-! ## READREG -/

theorem decode_readreg (x : Byte) (rest : List Byte) : decode (0x0D :: x :: rest) = .ok (.readreg x, rest) := rfl

/-- A 16-bit word is its low byte and 256 times its high byte. -/
theorem word_toNat_eq_bytes (v : BitVec 16) :
    v.toNat = (v.extractLsb' 0 8).toNat + 256 * (v.extractLsb' 8 8).toNat := by
  have := v.isLt
  simp only [BitVec.extractLsb'_toNat, Nat.shiftRight_eq_div_pow]
  omega

/-- SCALE fits the 16 bits of its register, since a configuration bounds it (R7, R22). -/
theorem scale_word_toNat (cfg : Config) : (BitVec.ofNat 16 cfg.scale).toNat = cfg.scale := by
  obtain ⟨-, scale_le, -⟩ := cfg.bounds
  exact Nat.mod_eq_of_lt (by omega)

/-- The constants of the registers 0..6, as numbers (R22). -/
theorem configReg_toNat {cfg : Config} {n : Nat} {v : BitVec 16} (h : configReg cfg n = some v) :
    [32, 24, 256, 192, 8, 8, cfg.scale][n]? = some v.toNat := by
  match n, h with
  | 0, rfl | 1, rfl | 2, rfl | 3, rfl | 4, rfl | 5, rfl => rfl
  | 6, rfl => exact congrArg some (scale_word_toNat cfg).symm

/-- READREG of an index 0..6 answers the two bytes of that register, low byte first (R76). -/
theorem exec_readreg_legal {idx : Byte} (s : State) (h : idx.toNat ≤ 6) : ∃ v, configReg s.cfg idx.toNat = some v ∧
    exec (.readreg idx) s = .next { s with
      cmdpos := s.cmdpos + 2
      output := s.output ++ [.response (v.extractLsb' 0 8), .response (v.extractLsb' 8 8)] } := by
  obtain ⟨v, hv, run⟩ := execReadreg_legal s (Nat.lt_succ_of_le h)
  rw [emit_emit] at run
  exact ⟨v, hv, run⟩

/-- READREG of a reserved index takes the fault RESERVED_REGISTER, whose STATUS is 0x21 (R76, R78). -/
theorem exec_readreg_reserved {idx : Byte} (s : State) (h : 7 ≤ idx.toNat) :
    exec (.readreg idx) s = .next { s with status := 0x21, faultInfo := idx, faultPos := s.cmdpos } :=
  execReadreg_reserved s h

/-- Settles O32: a legal index names a register whose bytes are answered (`exec_readreg_legal`) and whose constant is
`configReg_toNat`; any other index faults. -/
theorem readregAnswersTheConstantOrFaults : Obligations.ReadregAnswersTheConstantOrFaults := by
  refine ⟨decode_readreg, fun idx s => ⟨fun legal => ?_, exec_readreg_reserved s⟩⟩
  obtain ⟨v, hv, run⟩ := exec_readreg_legal s legal
  refine ⟨v.extractLsb' 0 8, v.extractLsb' 8 8, ?_, run⟩
  rw [← word_toNat_eq_bytes]
  exact configReg_toNat hv

end Sys2Proof.Machine
end

section
/-! The two faults: which commands raise them, and what a step that runs one does (R77, R78). -/

namespace Sys2Proof.Machine

/-! ## The commands that fault -/

/-- The two conditions of R77, read off the table `faults`. -/
theorem faults_isSome_iff (i : Instr) :
    (faults i).isSome = true ↔ (∃ op, i = .illegal op) ∨ ∃ idx, i = .readreg idx ∧ 7 ≤ idx.toNat := by
  cases i <;> simp [faults]

theorem faults_illegal (op : Byte) : faults (.illegal op) = some (.illegalOpcode, op) := rfl

theorem faults_readreg_reserved {idx : Byte} (h : 7 ≤ idx.toNat) :
    faults (.readreg idx) = some (.reservedRegister, idx) := if_pos h

/-- The decoder reads "(illegal)" from no opcode byte below 0x0E (R47); the converse of `decode_illegal`. -/
theorem le_of_decode_illegal {bs rest : List Byte} {op : Byte} (h : decode bs = .ok (.illegal op, rest)) :
    0x0E ≤ op.toNat := by
  cases bs with
  | nil => cases h
  | cons b s =>
    simp only [decode] at h
    split at h
    -- The default row: the byte is none of the fourteen opcodes.
    case h_15 =>
      cases h
      simp only [imp_false] at *
      omega
    -- Each other row answers a command of its own, or none.
    all_goals grind

/-! ## Commands and steps that halt the block -/

/-- Every cause's STATUS has bit 0 set (R19, R78). -/
theorem raiseFault_halted (c : Cause) (b : Byte) (s : State) : halted (raiseFault c b s) = true := by
  rw [halted, raiseFault_status]
  cases c <;> decide

/-- A command halts a block that is not halted exactly when it faults: any other keeps STATUS (R17, R77). -/
theorem exec_halted_iff {i : Instr} {s t : State} (hs : halted s = false) (h : exec i s = .next t) :
    halted t = true ↔ (faults i).isSome = true := by
  cases hf : faults i with
  | some cause =>
    obtain rfl : raiseFault cause.1 cause.2 s = t := by simpa [exec_faults s hf] using h
    simp [raiseFault_halted]
  | none =>
    obtain ⟨u, hu, effect⟩ := exec_effect s hf
    obtain rfl : u = t := by simpa [hu] using h
    have keeps : halted u = halted s := congrArg statusFault effect.status
    simp [keeps, hs]

/-- A step halts the block exactly when the command that it runs faults; taking in sent bytes never does (R77, R86). -/
theorem step_halted_iff {s t : State} (h : step s = .next t) :
    halted t = true ↔ ∃ i rest, decode (stream s) = .ok (i, rest) ∧ (faults i).isSome = true := by
  obtain ⟨hs, ⟨i, rest, hd, hexec⟩ | ⟨hd, -, rfl⟩⟩ := step_cases h
  · have hrun : halted (withRest rest s) = false := hs
    simp [exec_halted_iff hrun hexec, hd]
  · have keeps : halted (takeIn s) = halted s := rfl
    simp [keeps, hs, hd]

/-- A step that runs a faulting command takes its bytes off the stream and raises the fault, and does nothing else
(R78). -/
theorem step_of_faults {s t : State} {i : Instr} {rest : List Byte} {c : Cause} {b : Byte}
    (h : step s = .next t) (hd : decode (stream s) = .ok (i, rest)) (hf : faults i = some (c, b)) :
    t = raiseFault c b (withRest rest s) := by
  obtain ⟨hs, -⟩ := step_cases h
  rw [step_of_command hs hd, exec_faults _ hf] at h
  cases h
  rfl

/-- Settles O39: a step halts exactly on a command that faults (`step_halted_iff`), which is one of two kinds
(`faults_isSome_iff`, `le_of_decode_illegal`), and then it raises that fault alone (`step_of_faults`). -/
theorem onlyTwoConditionsFault : Obligations.OnlyTwoConditionsFault := by
  refine fun s t _ h => ⟨(step_halted_iff h).trans ?_, fun op rest hd => ?_, fun idx rest hd hidx => ?_⟩
  · refine exists_congr fun i => exists_congr fun rest => and_congr_right fun hd => ?_
    rw [faults_isSome_iff]
    refine or_congr_left (exists_congr fun op => ⟨?_, And.left⟩)
    rintro rfl
    exact ⟨rfl, le_of_decode_illegal hd⟩
  · obtain rfl := step_of_faults h hd (faults_illegal op)
    rfl
  · obtain rfl := step_of_faults h hd (faults_readreg_reserved hidx)
    rfl

end Sys2Proof.Machine
end

section
/-! The encoding: the decoder and the encoder undo each other, and the decoder waits for exactly the bytes of a command
(R42 to R48, R50). -/

namespace Sys2Proof.Machine

/-! ## Operands -/

/-- `sext8_s8Byte` in the spelling of the decoder's row lemmas. -/
theorem s8Byte_toInt {v : Int} (h : fitsS8 v = true) : (s8Byte v).toInt = v := sext8_s8Byte h

/-- `u16_bytes` in the spelling of the decoder's row lemmas. -/
theorem bytes_toNat {v : Nat} (h : fitsU16 v = true) : (loByte v).toNat + 256 * (hiByte v).toNat = v := u16_bytes h

theorem decode_randomize (r c h w : Byte) (rest : List Byte) : decode (0x05 :: r :: c :: h :: w :: rest) =
    .ok (.randomize r.toInt c.toInt h.toInt w.toInt, rest) := rfl

/-! ## Decoding an encoded command -/

/-- The bytes of a well-formed command, with any stream after them, decode to it: its row of the decoder reads the
operand bytes, and each operand that fits its format is what its bytes assemble to (R43 to R46). -/
theorem decode_encode {i : Instr} (rest : List Byte) (h : i.wf = true) : decode (encode i ++ rest) = .ok (i, rest) := by
  cases i <;> simp only [Instr.wf, Bool.and_eq_true, decide_eq_true_eq] at h
  case nop => exact decode_nop rest
  case pack a b => exact (decode_pack _ _ rest).trans (by rw [s8Byte_toInt h.1, s8Byte_toInt h.2])
  case unpack x => exact decode_unpack x rest
  case clear => exact decode_clear rest
  case setglyph row col off =>
    obtain ⟨⟨hrow, hcol⟩, hoff⟩ := h
    exact (decode_setglyph _ _ _ _ rest).trans (by rw [s8Byte_toInt hrow, s8Byte_toInt hcol, bytes_toNat hoff])
  case randomize row col height width =>
    obtain ⟨⟨⟨hrow, hcol⟩, hheight⟩, hwidth⟩ := h
    exact (decode_randomize _ _ _ _ rest).trans
      (by rw [s8Byte_toInt hrow, s8Byte_toInt hcol, s8Byte_toInt hheight, s8Byte_toInt hwidth])
  case drawchar row col code =>
    exact (decode_drawchar _ _ code rest).trans (by rw [s8Byte_toInt h.1, s8Byte_toInt h.2])
  case drawtext row col codes =>
    obtain ⟨⟨hrow, hcol⟩, hlen⟩ := h
    exact (decode_drawtext _ _ _ _ codes rest (bytes_toNat hlen).symm).trans
      (by rw [s8Byte_toInt hrow, s8Byte_toInt hcol])
  case drawcharset => exact decode_drawcharset rest
  case render row col height width =>
    obtain ⟨⟨⟨hrow, hcol⟩, hheight⟩, hwidth⟩ := h
    exact (decode_render _ _ _ _ rest).trans
      (by rw [s8Byte_toInt hrow, s8Byte_toInt hcol, s8Byte_toInt hheight, s8Byte_toInt hwidth])
  case update => exact decode_update rest
  case setink v => exact (decode_setink _ rest).trans (by rw [s8Byte_toInt h])
  case setpaper v => exact (decode_setpaper _ rest).trans (by rw [s8Byte_toInt h])
  case readreg idx => exact decode_readreg idx rest
  case illegal op => exact decode_illegal rest h

/-- Settles O1: `decode_encode`. -/
theorem decodeOfEncodeIsTheCommand : Obligations.DecodeOfEncodeIsTheCommand :=
  fun _ rest h => decode_encode rest h

/-! ## Encoding a decoded command -/

theorem fitsU16_u16 (lo hi : Byte) : fitsU16 (u16 lo hi) = true := decide_eq_true (u16_le lo hi)

/-- An opcode byte known by its number. -/
theorem byte_eq_ofNat {op : Byte} {n : Nat} (h : op.toNat = n) : op = BitVec.ofNat 8 n :=
  BitVec.eq_of_toNat_eq (by rw [h, BitVec.toNat_ofNat, Nat.mod_eq_of_lt (h ▸ op.isLt)])

/-- The decoder reads a command only from its encoding: the opcode byte is fixed by its row, and the operand bytes are
those of the values assembled from them (R43 to R47). -/
theorem encode_of_decode {bs rest : List Byte} {i : Instr} (h : decode bs = .ok (i, rest)) :
    i.wf = true ∧ encode i ++ rest = bs := by
  cases bs with
  | nil => cases h
  | cons op s =>
    simp only [decode] at h
    split at h
    -- DRAWTEXT: its codes are as many of the bytes that follow as its length bytes say.
    case h_8 hop =>
      obtain rfl := byte_eq_ofNat hop
      split at h
      · split at h
        · rename_i lo hi t complete
          cases h
          have len : (t.take (u16 lo hi)).length = u16 lo hi := by rw [List.length_take, min_eq_left complete]
          simp [Instr.wf, encode, len, fitsS8_sext8, fitsU16_u16, s8Byte_sext8, loByte_u16, hiByte_u16]
        · cases h
      · cases h
    -- The default row: the byte is none of the fourteen opcodes.
    case h_15 =>
      cases h
      simp only [imp_false] at *
      exact ⟨decide_eq_true (by omega), rfl⟩
    -- The rows without operands: NOP, CLEAR, DRAWCHARSET, UPDATE.
    case h_1 hop | h_4 hop | h_9 hop | h_11 hop =>
      cases h
      obtain rfl := byte_eq_ofNat hop
      exact ⟨rfl, rfl⟩
    -- The rows with one to four operand bytes.
    all_goals
      rename_i hop
      obtain rfl := byte_eq_ofNat hop
      split at h
      · cases h
        simp [Instr.wf, encode, fitsS8_sext8, fitsU16_u16, s8Byte_sext8, loByte_u16, hiByte_u16]
      · cases h

/-- Settles O2: `encode_of_decode`. -/
theorem encodeOfDecodeIsTheBytes : Obligations.EncodeOfDecodeIsTheBytes :=
  fun _ _ _ => encode_of_decode

/-! ## The length of a command -/

theorem encode_length (i : Instr) : (encode i).length = instrLength i := by
  cases i
  case drawtext row col codes => exact Laws.Length.drawtext row col codes
  all_goals rfl

/-- An illegal opcode byte is a command of one byte (R46). -/
theorem cmdLength_illegal {op : Byte} (rest : List Byte) (h : 0x0E ≤ op.toNat) : cmdLength (op :: rest) = some 1 := by
  simp only [cmdLength]
  split
  case h_15 => rfl
  all_goals omega

/-- R46's table says of a well-formed command's bytes the length that the command has. -/
theorem cmdLength_encode {i : Instr} (rest : List Byte) (h : i.wf = true) :
    cmdLength (encode i ++ rest) = some (instrLength i) := by
  cases i
  case drawtext row col codes =>
    simp only [Instr.wf, Bool.and_eq_true] at h
    exact congrArg (fun n => some (5 + n)) (u16_bytes h.2)
  case illegal op => exact cmdLength_illegal rest (of_decide_eq_true h)
  all_goals rfl

/-- The decoder waits only for bytes that R46's table asks for. -/
theorem lt_of_decode_incomplete {bs : List Byte} {n : Nat} (h : decode bs = .error .incomplete)
    (hn : cmdLength bs = some n) : bs.length < n := by
  cases bs with
  | nil => cases hn
  | cons op s =>
    simp only [decode] at h
    split at h
    -- DRAWTEXT: with fewer than four operand bytes its length is not known; else not all its codes are there.
    case h_8 hop =>
      obtain rfl := byte_eq_ofNat hop
      split at h
      · split at h
        · cases h
        · cases hn
          simp only [List.length_cons]
          omega
      · simp only [cmdLength, BitVec.toNat_ofNat] at hn
        cases hn
    -- The rows without operands and the default row always read a command.
    case h_1 | h_4 | h_9 | h_11 | h_15 => cases h
    -- The rows with one to four operand bytes, some of them missing.
    all_goals
      rename_i hop
      obtain rfl := byte_eq_ofNat hop
      cases hn
      rcases s with _ | ⟨b1, _ | ⟨b2, _ | ⟨b3, _ | ⟨b4, t⟩⟩⟩⟩ <;> simp at h ⊢

/-- A command that the decoder reads has the length of R46's table, and is taken whole and alone off the stream. -/
theorem decode_takes_cmdLength {bs rest : List Byte} {i : Instr} (h : decode bs = .ok (i, rest)) :
    cmdLength bs = some (instrLength i) ∧ instrLength i ≤ bs.length ∧ rest = bs.drop (instrLength i) := by
  obtain ⟨hwf, rfl⟩ := encode_of_decode h
  rw [← encode_length, List.length_append, List.drop_left]
  exact ⟨(cmdLength_encode rest hwf).trans (by rw [encode_length]), by omega, rfl⟩

/-- Settles O4: what the decoder takes (`decode_takes_cmdLength`) and when it waits (`lt_of_decode_incomplete`); if it
did not wait while bytes are missing, it would have taken more than are there. -/
theorem decoderWaitsForTheWholeCommand : Obligations.DecoderWaitsForTheWholeCommand := by
  refine fun bs => ⟨fun i rest => decode_takes_cmdLength, fun h n hn => lt_of_decode_incomplete h hn, fun missing => ?_⟩
  cases h : decode bs with
  | error e => cases e; rfl
  | ok taken =>
    obtain ⟨hlen, present, -⟩ := decode_takes_cmdLength h
    exact absurd (missing _ hlen) (by omega)

/-- Settles O3: the rows of R46's table, one opcode byte at a time. -/
theorem commandLengthFromFirstBytes : Obligations.CommandLengthFromFirstBytes := by
  refine ⟨rfl, fun op rest => ⟨cmdLength_illegal rest, ?_, ?_, ?_, ?_, ?_, fun hop short => ?_, ?_⟩⟩
  case refine_1 | refine_2 =>
    simp only [List.mem_cons, List.not_mem_nil, or_false]
    rintro (hop | hop | hop | hop) <;> obtain rfl := byte_eq_ofNat hop <;> rfl
  case refine_3 | refine_4 =>
    intro hop
    obtain rfl := byte_eq_ofNat hop
    rfl
  case refine_5 =>
    simp only [List.mem_cons, List.not_mem_nil, or_false]
    rintro (hop | hop | hop) <;> obtain rfl := byte_eq_ofNat hop <;> rfl
  case refine_6 =>
    obtain rfl := byte_eq_ofNat hop
    rcases rest with _ | ⟨b1, _ | ⟨b2, _ | ⟨b3, _ | ⟨b4, more⟩⟩⟩⟩
    iterate 4 rfl
    simp only [List.length_cons] at short
    omega
  case refine_7 =>
    rintro hop b1 b2 b3 b4 more rfl
    obtain rfl := byte_eq_ofNat hop
    rfl

/-- Settles O5: each word is read by its command's row of the decoder. -/
theorem writtenOutWordsDecode : Obligations.WrittenOutWordsDecode :=
  ⟨decode_pack 0x09 0xFD [], decode_setglyph 0x00 0x00 0x08 0x01 [], decode_drawchar 0x05 0x0A 0x41 [],
    decode_drawtext 0x17 0x1E 0x04 0x00 [0x48, 0x49, 0x41, 0x42] [] rfl, decode_render 0xFF 0xFF 0x02 0x02 [],
    decode_setink 0x0E [], decode_readreg 0x06 [], by decide⟩

/-- Settles O6: each expansion is the one of R50's table. -/
theorem pseudoInstructionsExpand : Obligations.PseudoInstructionsExpand :=
  fun _ _ => ⟨rfl, rfl, rfl, rfl⟩

end Sys2Proof.Machine
end

section
/-! What one command can do, for all commands at once: the colour registers, the planes, the output log, and the fault
record (R16, R19, R23, R24, R28, R47, R77, R78, R84). -/

namespace Sys2Proof.Machine

/-- A command that answers a next state either takes its fault or has its effect. -/
theorem exec_cases {i : Instr} {s t : State} (h : exec i s = .next t) :
    (∃ c b, faults i = some (c, b) ∧ t = raiseFault c b s) ∨ (faults i = none ∧ Effect i s t) := by
  cases hf : faults i with
  | some cause =>
    obtain rfl : raiseFault cause.1 cause.2 s = t := by simpa [exec_faults s hf] using h
    exact .inl ⟨cause.1, cause.2, rfl, rfl⟩
  | none =>
    obtain ⟨u, hu, effect⟩ := exec_effect s hf
    obtain rfl : u = t := by simpa [hu] using h
    exact .inr ⟨rfl, effect⟩

/-! ## The colour registers -/

theorem inkAfter_of_not_setink {i : Instr} (c : Colour) (h : ∀ v, i ≠ .setink v) : inkAfter i c = c := by
  cases i
  case setink v => exact absurd rfl (h v)
  all_goals rfl

theorem paperAfter_of_not_setpaper {i : Instr} (c : Colour) (h : ∀ v, i ≠ .setpaper v) : paperAfter i c = c := by
  cases i
  case setpaper v => exact absurd rfl (h v)
  all_goals rfl

/-- Settles O42: a fault writes neither colour register, and any other command's effect on them is `inkAfter` and
`paperAfter`. -/
theorem onlySettersWriteTheColourRegisters : Obligations.OnlySettersWriteTheColourRegisters := by
  intro i s t h
  obtain ⟨c, b, -, rfl⟩ | ⟨-, effect⟩ := exec_cases h
  · exact ⟨fun _ => raiseFault_ink s c b, fun _ => raiseFault_paper s c b⟩
  · exact ⟨fun hi => effect.ink.trans (inkAfter_of_not_setink _ hi),
      fun hp => effect.paper.trans (paperAfter_of_not_setpaper _ hp)⟩

/-! ## The planes -/

/-- Settles O43: each of the nine other commands ends in a state whose planes are those it began with. -/
theorem onlyDrawingCommandsWriteThePlanes : Obligations.OnlyDrawingCommandsWriteThePlanes := by
  intro i s t h written
  have notKept : ¬(t.pix = s.pix ∧ t.attr = s.attr) := not_and_or.2 written
  cases i
  case clear | setglyph | randomize | drawchar | drawtext | drawcharset => simp
  all_goals refine absurd ?_ notKept
  case nop | pack | update | setink | setpaper | illegal =>
    cases h
    exact ⟨rfl, rfl⟩
  case unpack x =>
    cases (exec_unpack x s).symm.trans h
    exact ⟨rfl, rfl⟩
  case render row col height width =>
    cases (exec_render row col height width s).symm.trans h
    exact ⟨rfl, rfl⟩
  case readreg idx =>
    by_cases legal : idx.toNat ≤ 6
    · obtain ⟨v, -, run⟩ := exec_readreg_legal s legal
      cases run.symm.trans h
      exact ⟨rfl, rfl⟩
    · cases (exec_readreg_reserved s (by omega)).symm.trans h
      exact ⟨rfl, rfl⟩

/-! ## The output log -/

theorem setGlyph_output (row col : Int) (off : Nat) (s : State) : (setGlyph row col off s).output = s.output := by
  rw [setGlyph_frame]

theorem drawChar_output (row col : Int) (code : Byte) (s : State) : (drawChar row col code s).output = s.output := by
  rw [drawChar_frame]

theorem drawText_output (row col : Int) (codes : List Byte) (s : State) :
    (drawText row col codes s).output = s.output := by
  rw [drawText_frame]

theorem randomizeRegion_output (row col height width : Int) (s : State) :
    (randomizeRegion row col height width s).output = s.output := by
  rw [randomizeRegion_frame]

theorem clearPlanes_output (s : State) : (clearPlanes s).output = s.output := by
  rw [clearPlanes_eq]

/-- Settles O45: each command's own events, the drawing commands appending none since they keep the log. -/
theorem eachCommandEmitsItsOwnEvents : Obligations.EachCommandEmitsItsOwnEvents := by
  intro i s t h
  cases i
  case nop | setink | setpaper | illegal => cases h; exact ⟨[], (List.append_nil _).symm, rfl⟩
  case pack a b => cases h; exact ⟨_, rfl, _, rfl⟩
  case unpack x => cases (exec_unpack x s).symm.trans h; exact ⟨_, rfl, _, _, rfl⟩
  case clear => cases h; exact ⟨[], by simp [clearPlanes_output], rfl⟩
  case setglyph row col off => cases h; exact ⟨[], by simp [setGlyph_output], rfl⟩
  case randomize row col height width => cases h; exact ⟨[], by simp [randomizeRegion_output], rfl⟩
  case drawchar row col code => cases h; exact ⟨[], by simp [drawChar_output], rfl⟩
  case drawtext row col codes => cases h; exact ⟨[], by simp [drawText_output], rfl⟩
  case drawcharset => cases h; exact ⟨[], by simp [drawText_output], rfl⟩
  case render row col height width =>
    cases (exec_render row col height width s).symm.trans h
    refine ⟨_, rfl, ?_⟩
    cases clipRegion row col height width with
    | none => exact .inl rfl
    | some g => exact .inr ⟨_, _, _, _, _, rfl⟩
  case update => cases h; exact ⟨_, rfl, _, _, _, _, _, rfl⟩
  case readreg idx =>
    by_cases legal : idx.toNat ≤ 6
    · obtain ⟨v, -, run⟩ := exec_readreg_legal s legal
      cases run.symm.trans h
      exact ⟨_, rfl, by simp only [if_pos legal]; exact ⟨_, _, rfl⟩⟩
    · cases (exec_readreg_reserved s (by omega)).symm.trans h
      exact ⟨[], (List.append_nil _).symm, by simp only [if_neg legal]⟩

/-! ## Illegal opcodes -/

/-- Settles O33: an illegal opcode byte's own row of the decoder, and the fault that running it takes. -/
theorem illegalOpcodeFaults : Obligations.IllegalOpcodeFaults :=
  fun op rest s hop => ⟨decode_illegal rest hop, _, exec_faults s (faults_illegal op), rfl, raiseFault_halted _ _ s⟩

end Sys2Proof.Machine
end

section
/-! The command stream and the run states: which command a step runs, when there is none, what CMDPOS counts, and that
chunking makes no difference (R18, R39, R42, R46, R78, R85, R86). -/

namespace Sys2Proof.Machine

/-! ## The command that a step runs -/

/-- Settles O34: `step_of_command`, with `withRest` written out. -/
theorem stepRunsTheDecodedCommand : Obligations.StepRunsTheDecodedCommand :=
  fun _ _ _ => step_of_command

/-- Settles O35: the bytes at the head of the stream decode to the command that they encode (`decode_encode`). -/
theorem stepRunsTheEncodedCommand : Obligations.StepRunsTheEncodedCommand := by
  intro s i more hs hwf hbytes
  have hd : decode (stream s) = .ok (i, more) := by rw [stream, hbytes, decode_encode more hwf]
  exact step_of_command hs hd

/-- Settles O36: the two cases of `step_of_unfinished`. -/
theorem unfinishedCommandWaits : Obligations.UnfinishedCommandWaits := by
  intro s hs hd
  rw [step_of_unfinished hs hd]
  exact ⟨fun none => if_pos none, fun some => if_neg some⟩

/-! ## Run states -/

theorem runState_of_halted {s : State} (h : halted s = true) : runState s = .halted := if_pos h

theorem runState_of_command {s : State} {taken : Instr × List Byte} (hs : halted s = false)
    (h : decode (stream s) = .ok taken) : runState s = .running := by
  rw [runState, if_neg (by simp [hs]), h]

theorem runState_of_unfinished {s : State} (hs : halted s = false) (h : decode (stream s) = .error .incomplete) :
    runState s = .waiting := by
  rw [runState, if_neg (by simp [hs]), h]

/-- Every state is in one of the three situations of R86, and its run state says in which. -/
theorem runState_cases (s : State) :
    (halted s = true ∧ runState s = .halted) ∨
    (halted s = false ∧ runState s = .running ∧ ∃ i rest, decode (stream s) = .ok (i, rest)) ∨
    (halted s = false ∧ runState s = .waiting ∧ decode (stream s) = .error .incomplete) := by
  cases hs : halted s with
  | true => exact .inl ⟨rfl, runState_of_halted hs⟩
  | false =>
    cases hd : decode (stream s) with
    | ok taken => exact .inr (.inl ⟨rfl, runState_of_command hs hd, taken.1, taken.2, rfl⟩)
    | error e => exact .inr (.inr ⟨rfl, runState_of_unfinished hs hd, rfl⟩)

theorem running_decodes {s : State} (h : runState s = .running) :
    halted s = false ∧ ∃ i rest, decode (stream s) = .ok (i, rest) := by
  rcases runState_cases s with ⟨-, hr⟩ | ⟨hs, -, hd⟩ | ⟨-, hr, -⟩
  · rw [hr] at h; cases h
  · exact ⟨hs, hd⟩
  · rw [hr] at h; cases h

theorem waiting_unfinished {s : State} (h : runState s = .waiting) :
    halted s = false ∧ decode (stream s) = .error .incomplete := by
  rcases runState_cases s with ⟨-, hr⟩ | ⟨-, hr, -⟩ | ⟨hs, -, hd⟩
  · rw [hr] at h; cases h
  · rw [hr] at h; cases h
  · exact ⟨hs, hd⟩

/-- Settles O37: what a step answers in each of the three run states (`runState_cases`); in RUNNING the command answers
a next state because every command does (`exec_completes`). -/
theorem runningAlwaysExecutes : Obligations.RunningAlwaysExecutes := by
  intro s
  rcases runState_cases s with ⟨hs, hr⟩ | ⟨hs, hr, i, rest, hd⟩ | ⟨hs, hr, hd⟩
  · simp [hr, step_of_halted hs]
  · obtain ⟨t, run⟩ := exec_completes i (withRest rest s)
    have hstep : step s = .next t := (step_of_command hs hd).trans run
    simp only [hr, hstep]
    exact ⟨fun _ => ⟨i, rest, t, hd, run, rfl⟩, by simp⟩
  · rw [step_of_unfinished hs hd, hr]
    by_cases hin : s.input = [] <;> simp [hin]

theorem resetBlock_not_halted (s : State) : halted (resetBlock s) = false := by
  rw [halted, resetBlock_status]
  rfl

/-- Settles O38: sending bytes leaves STATUS alone, so a halted block stays halted; reset clears STATUS. -/
theorem haltedBlockTakesNoBytes : Obligations.HaltedBlockTakesNoBytes := by
  intro s bytes hs
  have still : halted (hostSend bytes s) = true := hs
  exact ⟨step_of_halted still, still, rfl, resetBlock_not_halted _⟩

/-! ## The fault record and CMDPOS -/

theorem raiseFault_not_running {c : Cause} {b : Byte} {s : State} : halted (raiseFault c b s) ≠ false := by
  simp [raiseFault_halted]

/-- Settles O40: a step that does not halt has run a command that did not fault, or has taken in bytes; neither writes
the fault record. -/
theorem faultRecordChangesOnlyByAFault : Obligations.FaultRecordChangesOnlyByAFault := by
  intro s t h
  obtain ⟨hs, ⟨i, rest, -, run⟩ | ⟨-, -, rfl⟩⟩ := step_cases h
  · refine ⟨fun notHalted => ?_, hs⟩
    obtain ⟨c, b, -, rfl⟩ | ⟨-, effect⟩ := exec_cases run
    · exact absurd notHalted raiseFault_not_running
    · exact ⟨effect.status, effect.faultInfo, effect.faultPos⟩
  · exact ⟨fun _ => ⟨rfl, rfl, rfl⟩, hs⟩

/-- Settles O41: the bytes that a command takes are its encoding (`encode_of_decode`), whose length is what its effect
adds to CMDPOS; a fault adds nothing, and taking in bytes takes none off the stream. -/
theorem cmdposCountsConsumedBytes : Obligations.CmdposCountsConsumedBytes := by
  intro s t h
  obtain ⟨hs, ⟨i, rest, hd, run⟩ | ⟨-, -, rfl⟩⟩ := step_cases h
  · have notIncomplete : decode (stream s) ≠ .error .incomplete := by simp [hd]
    obtain ⟨c, b, -, rfl⟩ | ⟨-, effect⟩ := exec_cases run
    · exact ⟨fun running => absurd running raiseFault_not_running, fun _ => rfl, fun hinc => absurd hinc notIncomplete⟩
    · have keeps : halted t = false := (congrArg statusFault effect.status).trans hs
      refine ⟨fun _ => ⟨encode i, ?_, ?_⟩, fun halts => by simp [keeps] at halts,
        fun hinc => absurd hinc notIncomplete⟩
      · rw [effect.pending, effect.input]
        exact (encode_of_decode hd).2.symm
      · rw [encode_length, effect.cmdpos]
        rfl
  · refine ⟨fun _ => ⟨[], ?_, ?_⟩, fun _ => rfl, fun _ => rfl⟩
    · simp [stream]
    · simp

/-! ## Chunking -/

/-- How the bytes of a complete command are split between PENDING and the host makes no difference to the step that
runs it (R39). -/
theorem step_withStream {s : State} {p q : List Byte} (h : p ++ q = stream s) (hr : runState s = .running) :
    step (withStream p q s) = step s := by
  obtain ⟨hs, i, rest, hd⟩ := running_decodes hr
  have hd' : decode (stream (withStream p q s)) = .ok (i, rest) := by rw [← hd, ← h]; rfl
  rw [step_of_command hs hd]
  exact step_of_command (s := withStream p q s) hs hd'

/-- A command leaves PENDING and the bytes after it as it found them, whether it faults or not. -/
theorem exec_stream {i : Instr} {s t : State} (h : exec i s = .next t) : t.pending = s.pending ∧ t.input = s.input := by
  obtain ⟨c, b, -, rfl⟩ | ⟨-, effect⟩ := exec_cases h
  · exact ⟨rfl, rfl⟩
  · exact ⟨effect.pending, effect.input⟩

/-- Bytes sent before a command runs and bytes sent after it lead to the same state: the command is read from the same
bytes (`decode_append`), and what it does depends on none that follow (`exec_withStream`). -/
theorem step_hostSend {s t : State} (bytes : List Byte) (hr : runState s = .running) (h : step s = .next t) :
    step (hostSend bytes s) = .next (hostSend bytes t) := by
  obtain ⟨hs, i, rest, hd⟩ := running_decodes hr
  have run : exec i (withRest rest s) = .next t := (step_of_command hs hd).symm.trans h
  obtain ⟨hpending, hinput⟩ := exec_stream run
  have hd' : decode (stream (hostSend bytes s)) = .ok (i, rest ++ bytes) := by
    rw [← decode_append bytes hd, stream, stream, List.append_assoc]
    rfl
  have sent : withStream [] (rest ++ bytes) t = hostSend bytes t := by
    have noPending : t.pending = [] := hpending
    have left : t.input = rest := hinput
    rw [← noPending, ← left]
    rfl
  rw [step_of_command (s := hostSend bytes s) hs hd', ← sent]
  exact exec_withStream (s := withRest rest s) [] (rest ++ bytes) run

/-- Settles O46: `step_hostSend`; a waiting block that takes its bytes in still sees the same stream, as does one whose
bytes are split in another way (`step_withStream`). -/
theorem chunkingDoesNotMatter : Obligations.ChunkingDoesNotMatter := by
  refine ⟨fun s t bytes hr h => step_hostSend bytes hr h, fun s t bytes hr h hr' => ?_,
    fun s p q hpq hr => step_withStream hpq hr⟩
  obtain ⟨-, hd⟩ := waiting_unfinished hr
  obtain ⟨-, ⟨i, rest, hd', -⟩ | ⟨-, -, rfl⟩⟩ := step_cases h
  · rw [hd] at hd'; cases hd'
  · have same : stream s ++ bytes = stream (hostSend bytes s) := List.append_assoc ..
    exact (step_withStream same hr').symm

end Sys2Proof.Machine
end

section
/-! Reset, the configuration, and the invariant: what holds after reset, and that every step and every action of the
host keeps the invariant (R7, R8, R10, R11, R15, R19 to R21, R26, R27, R85, R91). -/

namespace Sys2Proof.Machine

/-! ## Reset -/

theorem reset_not_halted : halted State.reset = false := rfl

/-- Settles O47: the fields of `resetBlock`, and the run state of a block without a byte to read. -/
theorem resetClearsTheFaultRecord : Obligations.ResetClearsTheFaultRecord := by
  intro s
  have waits : runState (resetBlock s) = .waiting := runState_of_unfinished (resetBlock_not_halted s) rfl
  exact ⟨rfl, rfl, rfl, rfl, rfl, resetBlock_not_halted s, waits, rfl, rfl, rfl, rfl,
    runState_of_unfinished reset_not_halted rfl⟩

/-- Settles O48: after a reset the stream is what the host sends then, so O35 runs its first command. -/
theorem firstCommandAfterReset : Obligations.FirstCommandAfterReset := by
  intro s i hwf
  have bytes : (hostSend (encode i) (resetBlock s)).pending ++ (hostSend (encode i) (resetBlock s)).input =
      encode i ++ [] := by simp
  exact ⟨stepRunsTheEncodedCommand _ i [] (resetBlock_not_halted s) hwf bytes, resetBlock_cmdpos s⟩

/-! ## The configuration -/

theorem ofParams_of_check_none {p : Params} (h : p.check = none) : Config.ofParams p = .ok (Config.mk p h) := by
  unfold Config.ofParams
  split
  · rfl
  · rename_i e he
    rw [h] at he
    cases he

theorem ofParams_of_check_some {p : Params} {e : ConfigError} (h : p.check = some e) :
    Config.ofParams p = .error e := by
  unfold Config.ofParams
  split
  · rename_i hn
    rw [h] at hn
    cases hn
  · rename_i e' he
    rw [h] at he
    cases he
    rfl

/-- Settles O49: `Params.check` finds nothing exactly on the good parameters (`Params.check_eq_none_iff`), and what it
finds is the error. -/
theorem illFormedConfigurationIsRefused : Obligations.IllFormedConfigurationIsRefused := by
  intro p good
  refine ⟨fun hgood => ⟨_, ofParams_of_check_none (p.check_eq_none_iff.2 hgood), rfl⟩, fun hbad => ?_⟩
  obtain ⟨e, he⟩ := Option.ne_none_iff_exists'.1 fun hnone => hbad (p.check_eq_none_iff.1 hnone)
  exact ⟨e, ofParams_of_check_some he⟩

/-! ## The invariant at reset and under the host's actions -/

theorem afterReset_inv (cfg : Config) (n : Nat) (output : List Event) (answers : List Byte) (draws : Nat) :
    (State.afterReset cfg n output answers draws).Inv :=
  ⟨Memory.wf_nil _, Memory.wf_nil _, .inl ⟨rfl, rfl, rfl⟩, rfl, Nat.zero_le _⟩

/-- Settles O50: both states are `State.afterReset`. -/
theorem invariantHoldsAtReset : Obligations.InvariantHoldsAtReset :=
  ⟨afterReset_inv .., fun _ => afterReset_inv ..⟩

/-- Settles O52: the two kinds of bytes sent are in fields that the invariant does not read. -/
theorem hostActionsKeepTheInvariant : Obligations.HostActionsKeepTheInvariant := by
  rintro s bytes ⟨hpix, hattr, hfault, hpending⟩
  exact ⟨⟨hpix, hattr, hfault, hpending⟩, ⟨hpix, hattr, hfault, hpending⟩, afterReset_inv ..⟩

/-! ## The invariant under a step -/

/-- A legal fault record of a block that is not halted holds nothing (R19): the other two have `STATUS.FAULT` set. -/
theorem faultRecord_zero_of_running {s : State} (h : faultRecordLegal s) (hs : halted s = false) :
    s.status = 0x00#8 ∧ s.faultInfo = 0 ∧ s.faultPos = 0 := by
  rw [halted] at hs
  rcases h with hzero | ⟨hstatus, -⟩ | ⟨hstatus, -⟩
  · exact hzero
  · rw [hstatus] at hs; cases hs
  · rw [hstatus] at hs; cases hs

/-- The record that a fault writes is legal: the byte of an illegal opcode that the decoder reads is 0x0E or more, and a
reserved index is 7 or more (R20, R21, R77, R78). -/
theorem raiseFault_legal {i : Instr} {c : Cause} {b : Byte} {bs rest : List Byte} (s : State)
    (hd : decode bs = .ok (i, rest)) (h : faults i = some (c, b)) : faultRecordLegal (raiseFault c b s) := by
  have hi : (∃ op, i = .illegal op) ∨ ∃ idx, i = .readreg idx ∧ 7 ≤ idx.toNat :=
    (faults_isSome_iff i).1 (by rw [h]; rfl)
  rcases hi with ⟨op, rfl⟩ | ⟨idx, rfl, reserved⟩
  · cases h
    exact .inr (.inl ⟨rfl, le_of_decode_illegal hd, rfl⟩)
  · rw [faults_readreg_reserved reserved] at h
    cases h
    exact .inr (.inr ⟨rfl, reserved, rfl⟩)

theorem pendingUnfinished_of_nil {s : State} (h : s.pending = []) : pendingUnfinished s := by
  rw [pendingUnfinished, h]
  exact ⟨rfl, Nat.zero_le _⟩

/-- Running a decoded command in a block that is not halted keeps the invariant. -/
theorem exec_inv {s t : State} {i : Instr} {bs rest : List Byte} (hinv : s.Inv) (hs : halted s = false)
    (hd : decode bs = .ok (i, rest)) (h : exec i (withRest rest s) = .next t) : t.Inv := by
  obtain ⟨hpix, hattr, hfault, -⟩ := hinv
  obtain ⟨c, b, hf, rfl⟩ | ⟨-, effect⟩ := exec_cases h
  · exact ⟨hpix, hattr, raiseFault_legal _ hd hf, pendingUnfinished_of_nil rfl⟩
  · obtain ⟨hpix', hattr'⟩ := effect.planes ⟨hpix, hattr⟩
    obtain ⟨hstatus, hinfo, hpos⟩ := faultRecord_zero_of_running hfault hs
    exact ⟨hpix', hattr', .inl ⟨effect.status.trans hstatus, effect.faultInfo.trans hinfo, effect.faultPos.trans hpos⟩,
      pendingUnfinished_of_nil effect.pending⟩

/-- Taking in the bytes of an unfinished command keeps the invariant: they are too few for any command (R15). -/
theorem takeIn_inv {s : State} (hinv : s.Inv) (hd : decode (stream s) = .error .incomplete) : (takeIn s).Inv :=
  ⟨hinv.pixWf, hinv.attrWf, hinv.faultLegal, hd, decode_incomplete_length hd⟩

/-- Settles O51: a step runs a command (`exec_inv`) or takes in an unfinished one (`takeIn_inv`). -/
theorem everyStepKeepsTheInvariant : Obligations.EveryStepKeepsTheInvariant := by
  intro s t hinv h
  obtain ⟨hs, ⟨i, rest, hd, run⟩ | ⟨hd, -, rfl⟩⟩ := step_cases h
  · exact exec_inv hinv hs hd run
  · exact takeIn_inv hinv hd

end Sys2Proof.Machine
end

section
/-! The facts that the spec derives about the codec and the plane addresses, and a plane's read after a write (R13, R28,
R30, R31, R52, R53). -/

namespace Sys2Proof.Machine

/-! ## The codec -/

/-- The base of a colour index is the index modulo 8. -/
theorem colourBase_eq_mod (c : Colour) : (if 7 < c.toNat then c.toNat - 8 else c.toNat) = c.toNat % 8 := by
  have := c.isLt
  split <;> omega

/-- pack's closed form (R52) with both bases as remainders; its brightness bit has a name, for the case splits of the
proofs below. -/
theorem pack_toNat (a b : Int) : ∃ bright, (pack a b).toNat =
      64 * bright + 8 * ((clamp16 b).toNat % 8) + (clamp16 a).toNat % 8 ∧
    bright = if 7 < (clamp16 a).toNat ∨ 7 < (clamp16 b).toNat then 1 else 0 := by
  refine ⟨_, (packEncodesTheClampedColours.2 a b).trans ?_, rfl⟩
  simp only [colourBase_eq_mod]

theorem byte_getLsbD (x : Byte) (k : Nat) : x.getLsbD k = decide (x.toNat / 2 ^ k % 2 = 1) := by
  rw [← BitVec.testBit_toNat, Nat.testBit_eq_decide_div_mod_eq]

/-- Bit 7 of a packed byte is clear, and bit 6 says whether a colour is bright (R52, derived). -/
theorem pack_high_bits (a b : Int) :
    (pack a b).getLsbD 7 = false ∧ ((pack a b).getLsbD 6 = true ↔ 7 < a ∨ 7 < b) := by
  obtain ⟨bright, hpack, hbright⟩ := pack_toNat a b
  have ha := clamp16_toNat a
  have hb := clamp16_toNat b
  rw [byte_getLsbD, byte_getLsbD, decide_eq_false_iff_not, decide_eq_true_eq]
  split at hbright <;> omega

theorem clamp16_toNat_of_index {n : Nat} (h : n ≤ 15) : (clamp16 n).toNat = n := by
  have := clamp16_toNat n
  omega

/-- A dark ink beside a bright paper of the same base is promoted (R52, derived). -/
theorem pack_promotes {k : Nat} (hk : k < 8) :
    pack k (k + 8) = pack (k + 8) (k + 8) ∧ (pack k (k + 8)).toNat = 64 + 8 * k + k := by
  have dark : (clamp16 k).toNat = k := clamp16_toNat_of_index (by omega)
  have light : (clamp16 (k + 8)).toNat = k + 8 := clamp16_toNat_of_index (n := k + 8) (by omega)
  obtain ⟨bright, hpack, hbright⟩ := pack_toNat k (k + 8)
  obtain ⟨bright', hpack', hbright'⟩ := pack_toNat (k + 8) (k + 8)
  rw [if_pos (by omega)] at hbright hbright'
  exact ⟨BitVec.eq_of_toNat_eq (by omega), by omega⟩

/-- pack of an unpacked byte is the byte without bit 7 (R53, derived). -/
theorem pack_unpack (x : Byte) : pack (unpack x).1.toNat (unpack x).2.toNat = x &&& 0x7F := by
  obtain ⟨bright, hpack, hbright⟩ := pack_toNat (unpack x).1.toNat (unpack x).2.toNat
  have masked : (x &&& 0x7F).toNat = x.toNat % 2 ^ 7 := by
    rw [BitVec.toNat_and]
    exact Nat.and_two_pow_sub_one_eq_mod x.toNat 7
  rw [clamp16_colour, clamp16_colour] at hpack hbright
  have ink := unpack_ink_toNat x
  have paper := unpack_paper_toNat x
  apply BitVec.eq_of_toNat_eq
  split at hbright <;> omega

/-- What unpack reads back from a packed pair: each base, in the bright half when one of the two was there (R52, R53). -/
theorem unpack_pack (i p : Colour) : ∃ bright, bright = (if 7 < i.toNat ∨ 7 < p.toNat then 1 else 0) ∧
    (unpack (pack i.toNat p.toNat)).1.toNat = i.toNat % 8 + 8 * bright ∧
    (unpack (pack i.toNat p.toNat)).2.toNat = p.toNat % 8 + 8 * bright := by
  obtain ⟨bright, hpack, hbright⟩ := pack_toNat i.toNat p.toNat
  rw [clamp16_colour, clamp16_colour] at hpack hbright
  rw [unpack_ink_toNat, unpack_paper_toNat, hpack]
  refine ⟨bright, hbright, ?_⟩
  split at hbright <;> omega

/-- The round trip of a pair, which promotes a dark colour beside a bright one (R53, derived). -/
theorem unpack_pack_iff (i p : Colour) :
    (unpack (pack i.toNat p.toNat) = (i, p) ↔ (7 < i.toNat ↔ 7 < p.toNat)) ∧
    (¬(7 < i.toNat ↔ 7 < p.toNat) →
      (unpack (pack i.toNat p.toNat)).1.toNat = i.toNat % 8 + 8 ∧
      (unpack (pack i.toNat p.toNat)).2.toNat = p.toNat % 8 + 8) := by
  obtain ⟨bright, hbright, hink, hpaper⟩ := unpack_pack i p
  have hi := i.isLt
  have hp := p.isLt
  simp only [Prod.ext_iff, ← BitVec.toNat_inj, hink, hpaper]
  split at hbright <;> omega

/-- Settles O8: the four facts, each from the closed forms `pack_toNat` and `unpack_pack`. -/
theorem packAndUnpackAgree : Obligations.PackAndUnpackAgree :=
  ⟨pack_high_bits, fun _ => pack_promotes, pack_unpack, unpack_pack_iff⟩

/-! ## The planes -/

/-- Settles O11: the two cases of `memRead_memWrite`. -/
theorem planeReadAfterWrite : Obligations.PlaneReadAfterWrite := by
  intro sp sp' a a' v s
  exact ⟨(memRead_memWrite sp sp a a v s).trans (if_pos rfl),
    fun h => (memRead_memWrite sp' sp a' a v s).trans (if_neg h.symm)⟩

theorem pixAddr_eq_linear (row s col : Nat) : pixAddr row s col = 256 * row + 32 * s + col := by
  rw [pixAddr, columns]
  omega

/-- Each byte of the pixel plane is one subrow of one cell: its address in the base 8, 32 (R30). -/
theorem existsUnique_pixAddr {a : Nat} (h : a < 6144) : ∃! rsc : Nat × Nat × Nat,
    rsc.1 < 24 ∧ rsc.2.1 < 8 ∧ rsc.2.2 < 32 ∧ pixAddr rsc.1 rsc.2.1 rsc.2.2 = a := by
  refine ⟨(a / 256, a / 32 % 8, a % 32), ?_, ?_⟩
  · simp only [pixAddr_eq_linear]
    omega
  · rintro ⟨row, s, col⟩ hcell
    simp only [pixAddr_eq_linear, Prod.mk.injEq] at hcell ⊢
    omega

/-- Each byte of the attribute plane is one cell's: its address in the base 32 (R31). -/
theorem existsUnique_attrAddr {a : Nat} (h : a < 768) :
    ∃! rc : Nat × Nat, rc.1 < 24 ∧ rc.2 < 32 ∧ attrAddr rc.1 rc.2 = a := by
  refine ⟨(a / 32, a % 32), ?_, ?_⟩
  · simp only [attrAddr_eq_linear]
    omega
  · rintro ⟨row, col⟩ hcell
    simp only [attrAddr_eq_linear, Prod.mk.injEq] at hcell ⊢
    omega

/-- Settles O12: both addresses in linear form, and their inverses. -/
theorem pixelPlaneIsRasterOrder : Obligations.PixelPlaneIsRasterOrder :=
  ⟨pixAddr_eq_linear, fun x y _ _ => ⟨pixAddr_of_line y (x / 8), by omega⟩, fun _ => existsUnique_pixAddr,
    attrAddr_eq_linear, fun _ => existsUnique_attrAddr⟩

end Sys2Proof.Machine
end

section
/-! Drawing: what CLEAR leaves, where RANDOMIZE's draws go, and the cells of a text (R56, R58, R60, R62, R64). -/

namespace Sys2Proof.Machine

/-! ## CLEAR -/

/-- Bit `7 - x mod 8` of a pattern byte: 0x55 sets the pixels of odd `x` and 0xAA those of even `x` (R56). -/
theorem clearPattern_bit (cfg : Config) (x y : Nat) (hx : x < 256) :
    (clearPattern cfg (32 * y + x / 8)).getLsbD (7 - x % 8) = true ↔ (x + y + cfg.clearPhase) % 2 = 1 := by
  have line : (32 * y + x / 8) / 32 = y := by omega
  have odd : ∀ k < 8, (0x55#8).getLsbD (7 - k) = decide (k % 2 = 1) := by decide
  have even : ∀ k < 8, (0xAA#8).getLsbD (7 - k) = decide (k % 2 = 0) := by decide
  have hk : x % 8 < 8 := Nat.mod_lt x (by decide)
  rw [clearPattern, line]
  split
  · rw [odd _ hk, decide_eq_true_eq]; omega
  · rw [even _ hk, decide_eq_true_eq]; omega

/-- Settles O15: the pixels after CLEAR are those of `clearPattern_bit`, so neighbours differ in the parity of
`x + y`. -/
theorem clearDrawsACheckerboard : Obligations.ClearDrawsACheckerboard := by
  intro s
  refine ⟨_, exec_clear s, ?_⟩
  intro pixel
  have checkers : ∀ x y : Nat, x < 256 → y < 192 → (pixel x y = true ↔ (x + y + s.cfg.clearPhase) % 2 = 1) := by
    intro x y hx hy
    have read : memRead .pix (32 * y + x / 8) (advance 1 (clearPlanes s)) = clearPattern s.cfg (32 * y + x / 8) :=
      (advance_memRead ..).trans (clearPlanes_pix s (by simp only [pixSize]; omega))
    rw [← clearPattern_bit s.cfg x y hx, ← read]
  refine ⟨checkers, fun x y hx hy same => ?_, fun x y hx hy same => ?_⟩
  · have here := checkers x y (by omega) hy
    have right := checkers (x + 1) y hx hy
    rw [same] at here
    have parity := here.symm.trans right
    omega
  · have here := checkers x y hx (by omega)
    have below := checkers x (y + 1) hx hy
    rw [same] at here
    have parity := here.symm.trans below
    omega

/-- Settles O16: both planes after CLEAR are functions of the configuration, INK and PAPER (`clearPlanes_eq`). -/
theorem clearForgetsThePlanes : Obligations.ClearForgetsThePlanes := by
  intro s s' hcfg hink hpaper
  refine ⟨_, _, exec_clear s, exec_clear s', ?_, ?_⟩
  · rw [clearPlanes_eq, clearPlanes_eq, hcfg]
    rfl
  · have sameAttr : currentAttr s = currentAttr s' := by rw [currentAttr, currentAttr, hink, hpaper]
    rw [clearPlanes_eq, clearPlanes_eq, sameAttr]
    rfl

/-! ## RANDOMIZE -/

theorem exec_randomize (row col height width : Int) (s : State) : exec (.randomize row col height width) s =
    .next (advance 5 (randomizeRegion row col height width s)) := rfl

theorem randomizeRegion_of_none {row col height width : Int} (s : State)
    (h : clipRegion row col height width = none) : randomizeRegion row col height width s = s := by
  rw [randomizeRegion, h]

theorem randomizeRegion_of_some {row col height width : Int} {g : Region} (s : State)
    (h : clipRegion row col height width = some g) :
    randomizeRegion row col height width s = drawAll (regionBytes g) s := by
  rw [randomizeRegion, h]

/-- The number of draws: nine for each cell of the overlap with the grid (R60). -/
theorem regionBytes_length_of_some {row col height width : Int} {g : Region}
    (h : clipRegion row col height width = some g) : (regionBytes g).length =
    9 * ((min (row + height) 24 - max row 0).toNat * (min (col + width) 32 - max col 0).toNat) := by
  obtain ⟨-, -, high, wide⟩ := clipRegion_some_geometry h
  rw [regionBytes_length, high, wide]

/-- A request without a cell draws nothing. -/
theorem draws_of_none {row col height width : Int} (h : clipRegion row col height width = none) :
    9 * ((min (row + height) 24 - max row 0).toNat * (min (col + width) 32 - max col 0).toNat) = 0 := by
  have noCell := (clipRegion_eq_none_iff row col height width).1 h
  rw [Nat.mul_eq_zero, Nat.mul_eq_zero, Int.toNat_eq_zero, Int.toNat_eq_zero]
  omega

/-- The draw that a byte of a list of different places takes is its position in the list. -/
theorem memRead_drawAll_idxOf {sp : Space} {a : Nat} {ts : List (Space × Nat)} (s : State) (hn : ts.Nodup)
    (h : (sp, a) ∈ ts) : memRead sp a (drawAll ts s) = answerAt (ts.idxOf (sp, a)) s :=
  memRead_drawAll_at ts s _ hn (List.getElem?_idxOf h)

/-- After a list of draws a command only moves CMDPOS (R18). -/
theorem advance_drawAll_frame (n : Nat) (ts : List (Space × Nat)) (s : State) :
    advance n (drawAll ts s) = { s with
      cmdpos := s.cmdpos + BitVec.ofNat 32 n
      pix := (advance n (drawAll ts s)).pix
      attr := (advance n (drawAll ts s)).attr
      answers := s.answers.drop ts.length
      draws := s.draws + ts.length } := by
  rw [drawAll_frame]
  rfl

/-- Settles O18: an EMPTY request draws nothing; of any other, each byte of the clipped region takes the draw of its
own position in `regionBytes`, which names no byte twice. -/
theorem randomizeFillsOnlyItsRegion : Obligations.RandomizeFillsOnlyItsRegion := by
  refine ⟨decode_randomize, fun row col height width s => ?_⟩
  cases hclip : clipRegion row col height width with
  | none =>
    have noStore : ∀ sp a, ¬regionStores row col height width sp a := by
      rintro sp a ⟨r, c, hcell, -⟩
      exact clipRegion_none hclip r c hcell
    have noop : exec (.randomize row col height width) s = .next (advance 5 s) := by
      rw [exec_randomize, randomizeRegion_of_none s hclip]
    refine ⟨advance 5 s, fun _ _ => 0, ?_⟩
    intro _ _ n
    have hn : n = 0 := draws_of_none hclip
    rw [hn]
    exact ⟨noop, rfl, fun sp a _ => advance_memRead .., fun sp a hstore => absurd hstore (noStore sp a),
      fun sp a _ _ hstore => absurd hstore (noStore sp a), fun _ => rfl⟩
  | some g =>
    obtain ⟨-, -, -, -, -, -, -, hcols⟩ := clipRegion_some hclip
    have nodup := regionBytes_nodup hcols
    have stores := regionBytes_iff_stores hclip
    refine ⟨advance 5 (drawAll (regionBytes g) s), fun sp a => (regionBytes g).idxOf (sp, a), ?_⟩
    intro _ _ n
    have hn : n = (regionBytes g).length := (regionBytes_length_of_some hclip).symm
    rw [hn]
    refine ⟨?_, advance_drawAll_frame 5 _ s, fun sp a hkept => ?_, fun sp a hstore => ⟨?_, ?_⟩,
      fun sp a sp' a' hstore _ same => ?_, fun hno => ?_⟩
    · rw [exec_randomize, randomizeRegion_of_some s hclip]
    · exact (advance_memRead ..).trans (memRead_drawAll_other sp a _ s (mt (stores sp a).1 hkept))
    · exact List.idxOf_lt_length_of_mem ((stores sp a).2 hstore)
    · exact (advance_memRead ..).trans (memRead_drawAll_idxOf s nodup ((stores sp a).2 hstore))
    · exact (List.idxOf_inj ((stores sp a).2 hstore)).1 same
    · exact absurd ⟨_, _, clipRegion_some_corner hclip⟩ hno

/-! ## Texts -/

/-- Settles O21: the state after DRAWTEXT is `drawText` with CMDPOS moved on, so what `drawText` draws
(`drawText_cell`) and keeps (`drawText_other`) is what the command does. -/
theorem drawtextDrawsEachCodeInItsCell : Obligations.DrawtextDrawsEachCodeInItsCell := by
  intro row col codes s
  refine ⟨_, exec_drawtext row col codes s, advance_frame_of_planes _ (drawText_frame row col codes s),
    fun k hk hprint hin => cellHolds_advance _ (drawText_cell s hk hprint hin), fun sp a hkept => ?_⟩
  exact (advance_memRead ..).trans (drawText_other s hkept)

/-- A text and one after it are one text when the second starts in the cell that the first ends before (R62). -/
theorem drawText_append (row col : Int) (codes more : List Byte) (s : State) :
    drawText row col (codes ++ more) s =
      drawText (textCell row col codes.length).1 (textCell row col codes.length).2 more (drawText row col codes s) := by
  induction codes generalizing row col s with
  | nil => rw [List.length_nil, textCell_zero]; rfl
  | cons k ks ih =>
    rw [List.cons_append, drawText_cons, drawText_cons, List.length_cons]
    split
    next below => rw [drawText_below _ more s (below.trans (textCell_row_ge ..))]
    next =>
      rw [textCell_succ]
      split <;> exact ih ..

/-- The codes that come after linear cell 767 draw nothing (R62). -/
theorem drawText_take {row col n : Nat} (codes : List Byte) (s : State) (hcol : col < 32)
    (hn : 768 ≤ 32 * row + col + n) : drawText row col (codes.take n) s = drawText row col codes s := by
  rcases Nat.lt_or_ge n codes.length with cut | whole
  · have len : (codes.take n).length = n := by rw [List.length_take, min_eq_left cut.le]
    have below : 24 ≤ (textCell row col n).1 := by
      rw [textCell_eq_linear row n hcol]
      simp only
      omega
    calc drawText row col (codes.take n) s
      _ = drawText (textCell row col n).1 (textCell row col n).2 (codes.drop n) (drawText row col (codes.take n) s) :=
        (drawText_below _ _ _ below).symm
      _ = drawText row col (codes.take n ++ codes.drop n) s := by rw [drawText_append, len]
      _ = drawText row col codes s := by rw [List.take_append_drop]
  · rw [List.take_of_length_le whole]

/-- Settles O22: the cells of the text by linear index (`drawText_linearCell`), and the cut text (`drawText_take`). -/
theorem drawtextTruncatesAtTheLastCell : Obligations.DrawtextTruncatesAtTheLastCell := by
  intro row col codes s _ hcol
  refine ⟨_, exec_drawtext row col codes s,
    fun k hk hprint hin => cellHolds_advance _ (drawText_linearCell row s hcol hk hprint hin),
    _, exec_drawtext row col _ s, ?_, ?_⟩
  · rw [advance_pix, advance_pix, drawText_take codes s hcol (by omega)]
  · rw [advance_attr, advance_attr, drawText_take codes s hcol (by omega)]

end Sys2Proof.Machine
end

section
/-! What a RENDER depends on (R24, R37, R66 to R68, R70). -/

namespace Sys2Proof.Machine

/-- Two states with the same COLOUR_TABLE and SCALE, the same pixel bytes and the same attribute bytes but for bit 7 in
the cells of a region present the same image of it (R66 to R68). -/
theorem presentEvent_congr {g : Region} {s t : State} (htable : s.cfg.colourTable = t.cfg.colourTable)
    (hscale : s.cfg.scale = t.cfg.scale)
    (hcells : ∀ r c, g.r0 ≤ r → r < g.r1 → g.c0 ≤ c → c < g.c1 →
      memRead .attr (attrAddr r c) s &&& 0x7F = memRead .attr (attrAddr r c) t &&& 0x7F ∧
      ∀ i < 8, memRead .pix (pixAddr r i c) s = memRead .pix (pixAddr r i c) t) :
    presentEvent g s = presentEvent g t := by
  have image : renderImage g s = renderImage g t := by
    refine renderImage_congr g s t hscale fun x y hx0 hx1 hy0 hy1 => ?_
    obtain ⟨hattr, hpix⟩ := hcells (y / 8) (x / 8) (by omega) (by omega) (by omega) (by omega)
    exact logicalColour_congr htable x y (hpix _ (Nat.mod_lt y (by decide))) hattr
  rw [presentEvent, presentEvent, image, hscale]

/-- Settles O27: both RENDERs append the Present of the same clipped region, if any, and `presentEvent_congr` says that
the two Presents are equal. -/
theorem renderSeesOnlyItsCells : Obligations.RenderSeesOnlyItsCells := by
  intro row col height width s s' htable hscale hcells
  refine ⟨_, exec_render row col height width s, ?_⟩
  rw [exec_render]
  cases hclip : clipRegion row col height width with
  | none => rfl
  | some g =>
    have same : presentEvent g s = presentEvent g s' := by
      refine presentEvent_congr htable hscale fun r c hr0 hr1 hc0 hc1 => hcells r c ?_
      exact (clipRegion_some_mem hclip r c).1 ⟨hr0, hr1, hc0, hc1⟩
    rw [Option.map_some, Option.map_some, same]

/-- Settles O28: the first RENDER changes CMDPOS and the output log only, of which the second reads neither. -/
theorem renderTwicePresentsTheSame : Obligations.RenderTwicePresentsTheSame := by
  intro row col height width s
  refine ⟨_, _, _, exec_render row col height width s, exec_render row col height width _, rfl, rfl, ?_⟩
  cases clipRegion row col height width <;> simp

end Sys2Proof.Machine
end
